-- ==== Sys2Proof/Word.lean ====
section
/-! DEFINITION. The bit vectors of the core: an 8-bit cell, an 8-bit address, a 4-bit field
(spec/00_scope.md R9, R11, R12). -/

namespace Sys2Proof

/-- An 8-bit value: a register, a memory cell or a fetched instruction (R9: XLEN, CELL_WIDTH,
INSN_WIDTH). Every value is unsigned (R12). -/
abbrev Byte := BitVec 8

/-- An address 0..255, in range by construction (R9: ADDR_WIDTH; spec/20_memory.md R40). -/
abbrev Addr := BitVec 8

/-- A 4-bit field: an opcode or an operand (R9: OPCODE_WIDTH, OPERAND_WIDTH). -/
abbrev Nibble := BitVec 4

end Sys2Proof
end

