-- ==== Sys2Proof/Config.lean ====
section
/-! DEFINITION. The fixed parameters of spec/00_scope.md R9, the values of power-on, and the type
of the one open parameter, COPYIN_OVERFLOW (R10). There is no free value: the spec leaves no
result of any instruction open (spec/93_implementation_defined.md). -/

namespace Sys2Proof.Config

/-- MEM_SIZE, the number of memory cells (R9). -/
def memSize : Nat := 256

/-- The reset vector (spec/20_memory.md R48). -/
def resetVector : Addr := 0x00#8

/-- What a cell holds at power-on (spec/70_reset_and_hazards.md R160), and so what an address
that the memory's list does not name reads as (DEDUCED, log 2). -/
def powerOnByte : Byte := 0x00#8

/-- COPYIN_OVERFLOW (R10): what `copy_in` does with a byte whose address would pass 255. The spec
leaves it open and has the model take it as an argument (DESIGN CHOICE, log 13). -/
inductive CopyInOverflow where
  | wrap
  | truncate
  deriving DecidableEq, Repr

end Sys2Proof.Config
end

