-- ==== Sys2Proof/Syntax.lean ====
section
/-! DEFINITION. The instructions, one constructor per row of spec/opcode_table.json, and the
assembler notation of spec/30_encoding.md R67. -/

namespace Sys2Proof

/-- An instruction: its opcode is the constructor, `imm` its low nibble (R60). The operand stands
in every constructor, also where the instruction ignores it (R65), so that encoding loses no bit
(DESIGN CHOICE, log 8). -/
inductive Instr where
  /-- 0x0, R120. -/
  | nop (imm : Nibble)
  /-- 0x1, R100: `imm` is a memory address. -/
  | lda (imm : Nibble)
  /-- 0x2, R110: `imm` is a literal. -/
  | add (imm : Nibble)
  /-- 0x3, R111: `imm` is a literal. -/
  | sub (imm : Nibble)
  /-- 0x4, R101: `imm` is a memory address. -/
  | sta (imm : Nibble)
  /-- 0x5, R102: `imm` is a literal. -/
  | ldi (imm : Nibble)
  /-- 0x6, R121: `imm` is a jump target. -/
  | jmp (imm : Nibble)
  /-- 0x7, unassigned, R123. -/
  | undef7 (imm : Nibble)
  /-- 0x8, unassigned, R123. -/
  | undef8 (imm : Nibble)
  /-- 0x9, unassigned, R123. -/
  | undef9 (imm : Nibble)
  /-- 0xA, unassigned, R123. -/
  | undefA (imm : Nibble)
  /-- 0xB, unassigned, R123. -/
  | undefB (imm : Nibble)
  /-- 0xC, unassigned, R123. -/
  | undefC (imm : Nibble)
  /-- 0xD, unassigned, R123. -/
  | undefD (imm : Nibble)
  /-- 0xE, unassigned, R123. -/
  | undefE (imm : Nibble)
  /-- 0xF, R122. -/
  | hlt (imm : Nibble)
  deriving DecidableEq, Repr

/-- What an instruction uses its operand for (R61). -/
inductive OperandUse where
  | literal
  | address
  | jumpTarget
  | ignored
  deriving DecidableEq, Repr

/-- One line of the assembler notation of R67, as tokens: the number is what the source text's
decimal or hexadecimal numeral denotes. A label emits nothing (DESIGN CHOICE, log 15). -/
inductive AsmLine where
  | lda (n : Nat)
  | add (n : Nat)
  | sub (n : Nat)
  | sta (n : Nat)
  | ldi (n : Nat)
  | jmp (n : Nat)
  | nop
  | hlt
  /-- `.byte v`. -/
  | byte (v : Nat)
  /-- `label:`. -/
  | label (name : String)
  deriving DecidableEq, Repr

end Sys2Proof
end

