-- ==== Sys2Proof/WellFormed.lean ====
section
/-! DEFINITION. Well-formed instructions and well-formed assembler lines. -/

namespace Sys2Proof

/-- The low nibble of an instruction (spec/30_encoding.md R60). -/
def Instr.operand : Instr → Nibble
  | .nop imm | .lda imm | .add imm | .sub imm | .sta imm | .ldi imm | .jmp imm
  | .undef7 imm | .undef8 imm | .undef9 imm | .undefA imm | .undefB imm | .undefC imm
  | .undefD imm | .undefE imm | .hlt imm => imm

/-- An instruction is well formed when its operand fits the four bits of its field (R9, R61). The
operand's type says so already, so no instruction fails this check (DESIGN CHOICE, log 8); the number
a programmer writes can be too wide, and `AsmLine.wellFormed` is where that is refused. -/
def Instr.wellFormed (i : Instr) : Bool := decide (i.operand.toNat < 16)

/-- R67: an operand is 0..15 and a `.byte` value 0..255. -/
def AsmLine.wellFormed : AsmLine → Bool
  | .lda n | .add n | .sub n | .sta n | .ldi n | .jmp n => decide (n < 16)
  | .byte v => decide (v < 256)
  | .nop | .hlt | .label _ => true

end Sys2Proof
end

