-- ==== Sys2Proof/Decode.lean ====
section
/-! DEFINITION. The fields of an instruction byte, the decoder, the encoder, and the opcode table
(spec/30_encoding.md R60 to R66; spec/opcode_table.json). -/

namespace Sys2Proof

/-- `op = insn[7:4]` (R60). -/
def opField (insn : Byte) : Nibble := insn.extractLsb' 4 4

/-- `imm = insn[3:0]` (R60). -/
def immField (insn : Byte) : Nibble := insn.extractLsb' 0 4

/-- The instruction an opcode selects, with its operand: R62's table, all sixteen values (R64). -/
def instrOf (op imm : Nibble) : Instr :=
  match op.toFin with
  | 0x0 => .nop imm
  | 0x1 => .lda imm
  | 0x2 => .add imm
  | 0x3 => .sub imm
  | 0x4 => .sta imm
  | 0x5 => .ldi imm
  | 0x6 => .jmp imm
  | 0x7 => .undef7 imm
  | 0x8 => .undef8 imm
  | 0x9 => .undef9 imm
  | 0xA => .undefA imm
  | 0xB => .undefB imm
  | 0xC => .undefC imm
  | 0xD => .undefD imm
  | 0xE => .undefE imm
  | 0xF => .hlt imm
  | ⟨n + 16, h⟩ => absurd h (by omega)

/-- Decode one byte. Total: every byte is an instruction (R64). -/
def decodeByte (insn : Byte) : Instr := instrOf (opField insn) (immField insn)

/-- Why a decoder can refuse. -/
inductive DecodeError where
  /-- There is no byte to decode. No byte is refused (R64). Safe: no fetch ends here, since every
  address holds a byte (DESIGN CHOICE, log 7). -/
  | noByte
  deriving DecidableEq, Repr

/-- Decode the instruction at the head of a sequence of bytes, with what is left. One byte is
consumed (R66). -/
def decode : List Byte → Except DecodeError (Instr × List Byte)
  | [] => .error .noByte
  | insn :: rest => .ok (decodeByte insn, rest)

/-- The byte that spec/opcode_table.json's numbering gives: the low `nbits` bits of `w`, of which
an instruction of this core has the first eight (DESIGN CHOICE, log 7). -/
def byteOfTableWord (nbits w : Nat) : Byte := BitVec.ofNat 8 (w % 2 ^ nbits)

/-- The instruction the decoder reads from a table word. -/
def decodeTableWord (nbits w : Nat) : Option Instr :=
  match decode [byteOfTableWord nbits w] with
  | .ok (i, _) => some i
  | .error _ => none

/-- The opcode of an instruction (R62). -/
def Instr.opcode : Instr → Nibble
  | .nop _ => 0x0#4
  | .lda _ => 0x1#4
  | .add _ => 0x2#4
  | .sub _ => 0x3#4
  | .sta _ => 0x4#4
  | .ldi _ => 0x5#4
  | .jmp _ => 0x6#4
  | .undef7 _ => 0x7#4
  | .undef8 _ => 0x8#4
  | .undef9 _ => 0x9#4
  | .undefA _ => 0xA#4
  | .undefB _ => 0xB#4
  | .undefC _ => 0xC#4
  | .undefD _ => 0xD#4
  | .undefE _ => 0xE#4
  | .hlt _ => 0xF#4

/-- The byte of an instruction: opcode above, operand below (R60). -/
def encodeByte (i : Instr) : Byte := i.opcode ++ i.operand

/-- The encoding of an instruction: one byte (R66). -/
def encode (i : Instr) : List Byte := [encodeByte i]

/-- The name of an instruction's row in spec/opcode_table.json. -/
def Instr.mnemonic : Instr → String
  | .nop _ => "NOP"
  | .lda _ => "LDA"
  | .add _ => "ADD"
  | .sub _ => "SUB"
  | .sta _ => "STA"
  | .ldi _ => "LDI"
  | .jmp _ => "JMP"
  | .undef7 _ => "UNDEF7"
  | .undef8 _ => "UNDEF8"
  | .undef9 _ => "UNDEF9"
  | .undefA _ => "UNDEFA"
  | .undefB _ => "UNDEFB"
  | .undefC _ => "UNDEFC"
  | .undefD _ => "UNDEFD"
  | .undefE _ => "UNDEFE"
  | .hlt _ => "HLT"

/-- A row of R62's table: a byte belongs to it when its bits under the mask are the pattern. -/
structure OpcodeRow where
  mnemonic : String
  mask     : Byte
  pattern  : Byte
  use      : OperandUse
  deriving DecidableEq, Repr

/-- Whether a byte is an instruction of a row (R62). -/
def OpcodeRow.covers (r : OpcodeRow) (insn : Byte) : Bool := insn &&& r.mask == r.pattern

/-- spec/opcode_table.json, row by row, with the operand use of R61: what the decoder is checked
against. -/
def opcodeTable : List OpcodeRow :=
  [⟨"NOP", 0xF0#8, 0x00#8, .ignored⟩, ⟨"LDA", 0xF0#8, 0x10#8, .address⟩,
   ⟨"ADD", 0xF0#8, 0x20#8, .literal⟩, ⟨"SUB", 0xF0#8, 0x30#8, .literal⟩,
   ⟨"STA", 0xF0#8, 0x40#8, .address⟩, ⟨"LDI", 0xF0#8, 0x50#8, .literal⟩,
   ⟨"JMP", 0xF0#8, 0x60#8, .jumpTarget⟩, ⟨"UNDEF7", 0xF0#8, 0x70#8, .ignored⟩,
   ⟨"UNDEF8", 0xF0#8, 0x80#8, .ignored⟩, ⟨"UNDEF9", 0xF0#8, 0x90#8, .ignored⟩,
   ⟨"UNDEFA", 0xF0#8, 0xA0#8, .ignored⟩, ⟨"UNDEFB", 0xF0#8, 0xB0#8, .ignored⟩,
   ⟨"UNDEFC", 0xF0#8, 0xC0#8, .ignored⟩, ⟨"UNDEFD", 0xF0#8, 0xD0#8, .ignored⟩,
   ⟨"UNDEFE", 0xF0#8, 0xE0#8, .ignored⟩, ⟨"HLT", 0xF0#8, 0xF0#8, .ignored⟩]

/-- What each instruction uses its operand for (R61). -/
def Instr.operandUse : Instr → OperandUse
  | .add _ | .sub _ | .ldi _ => .literal
  | .lda _ | .sta _ => .address
  | .jmp _ => .jumpTarget
  | .nop _ | .undef7 _ | .undef8 _ | .undef9 _ | .undefA _ | .undefB _ | .undefC _
  | .undefD _ | .undefE _ | .hlt _ => .ignored

end Sys2Proof
end

