-- ==== Sys2Proof/Machine/State.lean ====
section
/-! DEFINITION. The state of the core (spec/10_state.md), the memory's canonical form, the reasons
a step can stop, and the state after power-on. -/

namespace Sys2Proof.Machine

/-- The memory `M` (R30): address and byte pairs. In canonical form the addresses rise strictly and
no pair holds what an unlisted address reads as, so that equal memories are equal lists
(DESIGN CHOICE, log 3). -/
abbrev Memory := List Host.Cell

/-- The canonical form: addresses strictly rising, all below 256, and no cell listed that holds the
power-on byte. -/
abbrev Memory.wf (m : Memory) : Prop :=
  m.Pairwise (fun x y => x.1 < y.1) ∧
    ∀ c ∈ m, c.1 < Config.memSize ∧ c.2 ≠ Config.powerOnByte

/-- Why the machine could stop with a fault: for no reason. The core raises no exception and every
step is total (spec/60_exceptions.md R140, spec/40_execution_cycle.md R80, R95), so the type has no
constructor (DEDUCED, log 6). -/
inductive Fault
  deriving DecidableEq, Repr

/-- Why the model could refuse an instruction. -/
inductive Refusal where
  /-- The instruction has no meaning in the model. Raised by an arm of `exec` alone, and by no arm
  now: every instruction is modelled. Safe: the model would stop where the core goes on. -/
  | notModelled (mnemonic : String)
  deriving DecidableEq, Repr

/-- The whole architectural state (spec/10_state.md, its opening tuple). -/
structure State where
  /-- `A`, the accumulator (R20, R21). -/
  a      : Byte
  /-- `B`, written by ADD and SUB only (R20, R22). -/
  b      : Byte
  /-- `PC`, the address of the next instruction to fetch (R23). -/
  pc     : Addr
  /-- `halted`: false is Running, true is Halted (R25; DESIGN CHOICE, log 18). -/
  halted : Bool
  /-- `M`, program and data (R30). -/
  mem    : Memory
  deriving DecidableEq, Repr

/-- The state at power-on (R34; spec/70_reset_and_hazards.md R160): every register 0, Running, every
memory cell 0x00 (DEDUCED, log 1). -/
def State.reset : State where
  a      := 0x00#8
  b      := 0x00#8
  pc     := Config.resetVector
  halted := false
  mem    := []

end Sys2Proof.Machine
end

