-- ==== Sys2Proof/Machine/Ops.lean ====
section
/-! DEFINITION. The operations over memory and registers: the primitives of spec/00_scope.md R13,
the fetch and PC advance of spec/40_execution_cycle.md R81, and the reset of
spec/70_reset_and_hazards.md R161.

There is no operation that takes an exception and none that returns from one: the core has no
exception, interrupt, trap entry or trap return (spec/60_exceptions.md R140 to R144). -/

namespace Sys2Proof.Machine

/-- The byte at an address; an unlisted address reads as the power-on byte (DEDUCED, log 2). -/
def Memory.read : Memory → Nat → Byte
  | [], _ => Config.powerOnByte
  | (k, v) :: m, addr => if k = addr then v else Memory.read m addr

/-- Take every entry of an address out of the list. -/
def Memory.erase : Memory → Nat → Memory
  | [], _ => []
  | (k, v) :: m, addr => if k = addr then Memory.erase m addr else (k, v) :: Memory.erase m addr

/-- Put an entry before the first entry of a higher address. -/
def Memory.insert : Memory → Nat → Byte → Memory
  | [], addr, v => [(addr, v)]
  | (k, w) :: m, addr, v =>
    if addr < k then (addr, v) :: (k, w) :: m else (k, w) :: Memory.insert m addr v

/-- Set the byte at an address, keeping the canonical form: the power-on byte is not listed
(DESIGN CHOICE, log 3). -/
def Memory.write (m : Memory) (addr : Nat) (v : Byte) : Memory :=
  if v = Config.powerOnByte then Memory.erase m addr
  else Memory.insert (Memory.erase m addr) addr v

/-- `MemRead(addr, 1)` (spec/20_memory.md R40): no error path, no side effect. -/
def State.memRead (s : State) (addr : Addr) : Byte := s.mem.read addr.toNat

/-- `MemWrite(addr, 1, v)` (spec/20_memory.md R41): no error path, no other cell. -/
def State.memWrite (s : State) (addr : Addr) (v : Byte) : State :=
  { s with mem := s.mem.write addr.toNat v }

/-- `A <- v`. -/
def State.setA (s : State) (v : Byte) : State := { s with a := v }

/-- `B <- v`. -/
def State.setB (s : State) (v : Byte) : State := { s with b := v }

/-- `PC <- t`. -/
def State.setPc (s : State) (t : Addr) : State := { s with pc := t }

/-- `PC <- PC +_8 1` (R81): modulo 256, so that 0xFF goes to 0x00. -/
def State.advancePc (s : State) : State := s.setPc (s.pc + 1#8)

/-- The byte at the current `PC` (R81). Every value of `PC` is a valid fetch address
(spec/10_state.md R23). -/
def State.fetchByte (s : State) : Byte := s.memRead s.pc

/-- The instruction at the current `PC`. -/
def State.fetchInstr (s : State) : Instr := decodeByte s.fetchByte

/-- `reset()` (spec/70_reset_and_hazards.md R161): the registers, `PC` and the flag are set to their
reset values, memory is left unchanged (DEDUCED, log 11). -/
def State.resetCore (s : State) : State :=
  { s with a := 0x00#8, b := 0x00#8, pc := Config.resetVector, halted := false }

end Sys2Proof.Machine
end

