-- ==== Sys2Proof/Machine/Operands.lean ====
section
/-! DEFINITION. The operand forms of spec/30_encoding.md R61. All are the zero-extended low nibble;
none sign-extends, scales or shifts it. -/

namespace Sys2Proof.Machine

/-- `zext_8(v)` (spec/00_scope.md R12). -/
def zext8 (v : Nibble) : Byte := v.zeroExtend 8

/-- The literal of ADD, SUB and LDI (R61). -/
def literal (imm : Nibble) : Byte := zext8 imm

/-- The effective address of LDA and STA, in 0..15 (spec/41_load_store.md R103): the one data
addressing mode, absolute direct. -/
def effectiveAddr (imm : Nibble) : Addr := zext8 imm

/-- The target of JMP, in 0..15 (spec/43_control.md R121). -/
def jumpTarget (imm : Nibble) : Addr := zext8 imm

end Sys2Proof.Machine
end

