-- ==== Sys2Proof/Machine/Flags.lean ====
section
/-! DEFINITION. The core's one flag, `halted` (spec/10_state.md R25, R26). It has no carry, borrow,
zero, sign or overflow flag (R27), so no flag is computed from a result. -/

namespace Sys2Proof.Machine

/-- `halted <- true`: what HLT does to the flag (R25). No instruction clears it (R26); reset does
(`State.resetCore`). -/
def State.setHalted (s : State) : State := { s with halted := true }

end Sys2Proof.Machine
end

