-- ==== Sys2Proof/Machine/Arithmetic.lean ====
section
/-! DEFINITION. The execute phases of ADD and SUB (spec/42_arithmetic.md). Arithmetic is modulo 256
and sets no flag (R112). B is written first and then read (spec/90_conflicts.md C5; DEDUCED,
log 9). -/

namespace Sys2Proof.Machine

/-- The shared shape of ADD and SUB: the literal goes to B, then A is computed from A and the new
B (R110, R111). -/
def withLiteralInB (f : Byte → Byte → Byte) (imm : Nibble) (s : State) : State :=
  let s := s.setB (literal imm)
  s.setA (f s.a s.b)

/-- ADD (R110): `B <- zext_8(imm); A <- A +_8 B`. -/
def execAdd (imm : Nibble) (s : State) : Host.Outcome State Fault Refusal :=
  .next (withLiteralInB (fun x y => x + y) imm s)

/-- SUB (R111): `B <- zext_8(imm); A <- A -_8 B`. -/
def execSub (imm : Nibble) (s : State) : Host.Outcome State Fault Refusal :=
  .next (withLiteralInB (fun x y => x - y) imm s)

end Sys2Proof.Machine
end

