-- ==== Sys2Proof/Machine/Control.lean ====
section
/-! DEFINITION. The execute phases of NOP, JMP, HLT and the eight unassigned opcodes
(spec/43_control.md). `PC` is already advanced (spec/10_state.md R24; DESIGN CHOICE, log 17). -/

namespace Sys2Proof.Machine

/-- An execute phase that does nothing: the shared effect of NOP (R120) and of the unassigned
opcodes (R123). -/
def noEffect (s : State) : Host.Outcome State Fault Refusal := .next s

/-- NOP (R120). -/
def execNop (_imm : Nibble) (s : State) : Host.Outcome State Fault Refusal := noEffect s

/-- JMP (R121): `PC <- zext_8(imm)`, over the advanced `PC`. -/
def execJmp (imm : Nibble) (s : State) : Host.Outcome State Fault Refusal :=
  .next (s.setPc (jumpTarget imm))

/-- HLT (R122): `halted <- true`. -/
def execHlt (_imm : Nibble) (s : State) : Host.Outcome State Fault Refusal :=
  .next s.setHalted

/-- Opcode 0x7, unassigned (R123): a no-op, not an error. -/
def execUndef7 (_imm : Nibble) (s : State) : Host.Outcome State Fault Refusal := noEffect s

/-- Opcode 0x8, unassigned (R123). -/
def execUndef8 (_imm : Nibble) (s : State) : Host.Outcome State Fault Refusal := noEffect s

/-- Opcode 0x9, unassigned (R123). -/
def execUndef9 (_imm : Nibble) (s : State) : Host.Outcome State Fault Refusal := noEffect s

/-- Opcode 0xA, unassigned (R123). -/
def execUndefA (_imm : Nibble) (s : State) : Host.Outcome State Fault Refusal := noEffect s

/-- Opcode 0xB, unassigned (R123). -/
def execUndefB (_imm : Nibble) (s : State) : Host.Outcome State Fault Refusal := noEffect s

/-- Opcode 0xC, unassigned (R123). -/
def execUndefC (_imm : Nibble) (s : State) : Host.Outcome State Fault Refusal := noEffect s

/-- Opcode 0xD, unassigned (R123). -/
def execUndefD (_imm : Nibble) (s : State) : Host.Outcome State Fault Refusal := noEffect s

/-- Opcode 0xE, unassigned (R123). -/
def execUndefE (_imm : Nibble) (s : State) : Host.Outcome State Fault Refusal := noEffect s

end Sys2Proof.Machine
end

