-- ==== Sys2Proof/Machine/LoadStore.lean ====
section
/-! DEFINITION. The execute phases of LDA, STA and LDI (spec/41_load_store.md). `PC` is already
advanced (spec/10_state.md R24; DESIGN CHOICE, log 17). -/

namespace Sys2Proof.Machine

/-- LDA (R100): `A <- MemRead(zext_8(imm), 1)`. -/
def execLda (imm : Nibble) (s : State) : Host.Outcome State Fault Refusal :=
  .next (s.setA (s.memRead (effectiveAddr imm)))

/-- STA (R101): `MemWrite(zext_8(imm), 1, A)`. -/
def execSta (imm : Nibble) (s : State) : Host.Outcome State Fault Refusal :=
  .next (s.memWrite (effectiveAddr imm) s.a)

/-- LDI (R102): `A <- zext_8(imm)`; B is not written. -/
def execLdi (imm : Nibble) (s : State) : Host.Outcome State Fault Refusal :=
  .next (s.setA (literal imm))

end Sys2Proof.Machine
end

