-- ==== Sys2Proof/Machine/Dispatch.lean ====
section
/-! DEFINITION. The execute phase of an instruction, one arm per constructor of Instr
(spec/40_execution_cycle.md R80, R82). -/

namespace Sys2Proof.Machine

def exec (i : Instr) (s : State) : Host.Outcome State Fault Refusal :=
  match i with
  | .nop imm => Sys2Proof.Machine.execNop imm s
  | .lda imm => Sys2Proof.Machine.execLda imm s
  | .add imm => Sys2Proof.Machine.execAdd imm s
  | .sub imm => Sys2Proof.Machine.execSub imm s
  | .sta imm => Sys2Proof.Machine.execSta imm s
  | .ldi imm => Sys2Proof.Machine.execLdi imm s
  | .jmp imm => Sys2Proof.Machine.execJmp imm s
  | .undef7 imm => Sys2Proof.Machine.execUndef7 imm s
  | .undef8 imm => Sys2Proof.Machine.execUndef8 imm s
  | .undef9 imm => Sys2Proof.Machine.execUndef9 imm s
  | .undefA imm => Sys2Proof.Machine.execUndefA imm s
  | .undefB imm => Sys2Proof.Machine.execUndefB imm s
  | .undefC imm => Sys2Proof.Machine.execUndefC imm s
  | .undefD imm => Sys2Proof.Machine.execUndefD imm s
  | .undefE imm => Sys2Proof.Machine.execUndefE imm s
  | .hlt imm => Sys2Proof.Machine.execHlt imm s

end Sys2Proof.Machine
end

