-- ==== Sys2Proof/Machine/Step.lean ====
section
/-! DEFINITION. One step of the core (spec/40_execution_cycle.md R80 to R83), and the state whose
next step runs a given instruction. -/

namespace Sys2Proof.Machine

/-- `step()` (R80): fetch the byte at `PC`, advance `PC`, decode, execute. It does not look at
`halted` (R83; DEDUCED, log 4). -/
def step (s : State) : Host.Outcome State Fault Refusal :=
  exec s.fetchInstr s.advancePc

/-- The state with a table word's instruction where the next step fetches: at `PC`. It stands for
the host's load of a program (spec/70_reset_and_hazards.md R164; DESIGN CHOICE, log 5). -/
def State.withFetchWord (s : State) (nbits w : Nat) : State :=
  s.memWrite s.pc (byteOfTableWord nbits w)

end Sys2Proof.Machine
end

