-- ==== Sys2Proof/Machine/Assembler.lean ====
section
/-! DEFINITION. The assembler notation of spec/30_encoding.md R67, over tokens (DESIGN CHOICE,
log 15). It is a way of writing bytes; the decoder is the reference. -/

namespace Sys2Proof.Machine

/-- Why a line does not assemble. -/
inductive AsmError where
  /-- The operand does not fit in 4 bits, or the `.byte` value in 8 (R67: an assembly error). -/
  | numberTooWide (line : AsmLine)
  deriving DecidableEq, Repr

/-- The bytes a line stands for, its number cut to its field: `(op << 4) | n`; NOP and HLT with
`imm = 0` (R67). -/
def asmBytes : AsmLine → List Byte
  | .lda n => encode (.lda (BitVec.ofNat 4 n))
  | .add n => encode (.add (BitVec.ofNat 4 n))
  | .sub n => encode (.sub (BitVec.ofNat 4 n))
  | .sta n => encode (.sta (BitVec.ofNat 4 n))
  | .ldi n => encode (.ldi (BitVec.ofNat 4 n))
  | .jmp n => encode (.jmp (BitVec.ofNat 4 n))
  | .nop => encode (.nop 0x0#4)
  | .hlt => encode (.hlt 0x0#4)
  | .byte v => [BitVec.ofNat 8 v]
  | .label _ => []

/-- Assemble one line: an error when its number does not fit (R67). -/
def assembleLine (line : AsmLine) : Except AsmError (List Byte) :=
  if line.wellFormed then .ok (asmBytes line) else .error (.numberTooWide line)

/-- Assemble a program, in order. -/
def assemble : List AsmLine → Except AsmError (List Byte)
  | [] => .ok []
  | line :: rest =>
    match assembleLine line, assemble rest with
    | .ok bytes, .ok more => .ok (bytes ++ more)
    | .error e, _ => .error e
    | .ok _, .error e => .error e

end Sys2Proof.Machine
end

