-- ==== Sys2Proof/Machine/RunControl.lean ====
section
/-! DEFINITION. Several steps, and the run control (spec/40_execution_cycle.md R84, R85). -/

namespace Sys2Proof.Machine

/-- `k` steps in a row, whatever `halted` is. -/
def stepN : Nat → State → Host.Outcome State Fault Refusal
  | 0, s => .next s
  | k + 1, s =>
    match step s with
    | .next t => stepN k t
    | .fault r => .fault r
    | .refused r => .refused r

/-- What a run under fuel comes to. -/
inductive RunOutcome where
  /-- The run has ended in this state (R85). -/
  | ended (final : State)
  /-- The fuel is spent and the run has not ended; no final state is named (R85). -/
  | notEnded
  | fault (r : Fault)
  | refused (r : Refusal)
  deriving DecidableEq, Repr

/-- `run()` (R84) with at most `fuel` steps: `halted` is tested before each step, so that a run
started in the Halted state takes none (DEDUCED, log 12). The core itself has no limit; the fuel is
the caller's (R85). -/
def runWithFuel : Nat → State → RunOutcome
  | 0, s => if s.halted then .ended s else .notEnded
  | fuel + 1, s =>
    if s.halted then .ended s
    else
      match step s with
      | .next t => runWithFuel fuel t
      | .fault r => .fault r
      | .refused r => .refused r

end Sys2Proof.Machine
end

