-- ==== Sys2Proof/Machine/Ports.lean ====
section
/-! DEFINITION. The core's ports: one action at each rising clock edge, and the outputs
(spec/40_execution_cycle.md R86 to R95), with `copy_in` (spec/20_memory.md R52). An edge is an
application of `edge`; time is only the order of edges (DEDUCED, log 16). -/

namespace Sys2Proof.Machine

/-- The input ports at one rising edge of `clk` (R87). -/
structure Inputs where
  rst      : Bool
  step     : Bool
  run      : Bool
  memWe    : Bool
  memAddr  : Addr
  memWdata : Byte
  deriving DecidableEq, Repr

/-- The output ports (R87). -/
structure Outputs where
  memRdata  : Byte
  aOut      : Byte
  bOut      : Byte
  pcOut     : Addr
  haltedOut : Bool
  deriving DecidableEq, Repr

/-- The outputs between edges: functions of the stable state and of `mem_addr` alone (R88, R91;
DEDUCED, log 14). -/
def outputs (memAddr : Addr) (s : State) : Outputs where
  memRdata  := s.memRead memAddr
  aOut      := s.a
  bOut      := s.b
  pcOut     := s.pc
  haltedOut := s.halted

/-- The at most one action of an edge (R86). -/
inductive EdgeAction where
  | reset
  | hostWrite
  | step
  | nothing
  deriving DecidableEq, Repr

/-- The action an edge does, by the priority reset, write, step, run (R90; DEDUCED, log 10). -/
def chooseAction (inp : Inputs) (halted : Bool) : EdgeAction :=
  if inp.rst then .reset
  else if inp.memWe then .hostWrite
  else if inp.step then .step
  else if inp.run && !halted then .step
  else .nothing

/-- One rising edge (R90). -/
def edge (inp : Inputs) (s : State) : Host.Outcome State Fault Refusal :=
  match chooseAction inp s.halted with
  | .reset => .next s.resetCore
  | .hostWrite => .next (s.memWrite inp.memAddr inp.memWdata)
  | .step => step s
  | .nothing => .next s

/-- A sequence of edges, the first input first. -/
def edges : List Inputs → State → Host.Outcome State Fault Refusal
  | [], s => .next s
  | inp :: rest, s =>
    match edge inp s with
    | .next t => edges rest t
    | .fault r => .fault r
    | .refused r => .refused r

/-- No request. -/
def Inputs.idle : Inputs := ⟨false, false, false, false, 0x00#8, 0x00#8⟩

/-- `Processor.reset()` (R93). -/
def Inputs.resetRequest : Inputs := { Inputs.idle with rst := true }

/-- `Processor.step()` (R93). -/
def Inputs.stepRequest : Inputs := { Inputs.idle with step := true }

/-- One edge of `Processor.run()`: `run` held, nothing else (R93). -/
def Inputs.runRequest : Inputs := { Inputs.idle with run := true }

/-- `Memory.write(addr, v)` (R93). -/
def Inputs.writeRequest (addr : Addr) (v : Byte) : Inputs :=
  { Inputs.idle with memWe := true, memAddr := addr, memWdata := v }

/-- Where `copy_in` puts the byte for the unbounded address `n`: nowhere, when `n` passes 255 and
COPYIN_OVERFLOW is `truncate` (spec/20_memory.md R52; DESIGN CHOICE, log 13). -/
def copyInTarget (overflow : Config.CopyInOverflow) (n : Nat) : Option Addr :=
  if n < Config.memSize then some (BitVec.ofNat 8 n)
  else
    match overflow with
    | .wrap => some (BitVec.ofNat 8 (n % Config.memSize))
    | .truncate => none

/-- The writes of `copy_in` from the unbounded address `n` on: target and byte, in order. -/
def copyInWrites (overflow : Config.CopyInOverflow) : Nat → List Byte → List (Addr × Byte)
  | _, [] => []
  | n, v :: rest =>
    match copyInTarget overflow n with
    | some addr => (addr, v) :: copyInWrites overflow (n + 1) rest
    | none => copyInWrites overflow (n + 1) rest

/-- Single-byte writes, in order. -/
def State.memWriteAll (s : State) (ws : List (Addr × Byte)) : State :=
  ws.foldl (fun s w => s.memWrite w.1 w.2) s

/-- `Memory.copy_in(addr, bytes)` (spec/20_memory.md R52). -/
def State.copyIn (overflow : Config.CopyInOverflow) (addr : Addr) (bytes : List Byte)
    (s : State) : State :=
  s.memWriteAll (copyInWrites overflow addr.toNat bytes)

/-- `copy_in` at the ports: one write edge per byte, in order (R93). -/
def copyInRequests (overflow : Config.CopyInOverflow) (addr : Addr) (bytes : List Byte) :
    List Inputs :=
  (copyInWrites overflow addr.toNat bytes).map (fun w => Inputs.writeRequest w.1 w.2)

end Sys2Proof.Machine
end

