-- ==== Sys2Proof/Safety.lean ====
section
/-! DEFINITION. The terms claims use: the machine's invariant, the states the host can bring the
core to, and the end of a run (spec/40_execution_cycle.md R85). -/

namespace Sys2Proof.Machine

/-- The invariant: the memory is in canonical form, and B is in 0..15 (spec/10_state.md R22). -/
def State.Inv (s : State) : Prop := s.mem.wf ∧ s.b.toNat < 16

/-- Every one of the 256 cells reads in `t` as it does in `s`: the frame of an action that stores
nothing. -/
def SameMemory (s t : State) : Prop := ∀ x : Addr, t.memRead x = s.memRead x

/-- Every cell but the one at `addr` reads in `t` as it does in `s`: the frame of an action that
stores the one byte at `addr`. -/
def SameMemoryBut (addr : Addr) (s t : State) : Prop :=
  ∀ x : Addr, x ≠ addr → t.memRead x = s.memRead x

/-- The states the core comes to from power-on, under any inputs of the host. -/
inductive Reachable : State → Prop
  | powerOn : Reachable State.reset
  | edge (inp : Inputs) (s t : State) : Reachable s → edge inp s = .next t → Reachable t

/-- The run from `s` ends after exactly `k` steps, in `t` (R85): `k` is the least number of steps,
at least one, that leaves `halted` true. -/
def EndsAfter (s : State) (k : Nat) (t : State) : Prop :=
  s.halted = false ∧ 1 ≤ k ∧ stepN k s = .next t ∧ t.halted = true ∧
    ∀ j u, 1 ≤ j → j < k → stepN j s = .next u → u.halted = false

/-- The run from `s` never ends (R85: a hang). -/
def Hangs (s : State) : Prop := s.halted = false ∧ ∀ k t, ¬ EndsAfter s k t

end Sys2Proof.Machine
end

