-- ==== Sys2Proof/Certificates/Slice0/Obligations.lean ====
section
/-! DEFINITION. The statements for the provers. Each docstring names the rules of spec/ it
formalises. "Rests on" names a choice that the spec marks as its own (92_eei_decisions.md,
90_conflicts.md, or a passage marked derived) or the model's, with its row of notes/assumptions/. -/

open Sys2Proof Sys2Proof.Machine

/-! ## Encoding -/

/-- R60: one byte, the opcode in bits 7..4 and the operand in bits 3..0. -/
def Obligations.FieldsAreTheTwoNibbles : Prop :=
  ∀ insn : Byte,
    (opField insn).toNat = insn.toNat / 16 ∧ (immField insn).toNat = insn.toNat % 16 ∧
    (decodeByte insn).opcode = opField insn ∧ (decodeByte insn).operand = immField insn ∧
    (encode (decodeByte insn)).length = 1

/-- R66: every instruction is one byte, and the decoder consumes one byte whatever stands behind
it. -/
def Obligations.DecoderConsumesOneByte : Prop :=
  ∀ (insn : Byte) (rest : List Byte),
    ∃ i, decode (insn :: rest) = .ok (i, rest) ∧ decode [insn] = .ok (i, []) ∧
      (encode i).length = 1

/-- R64 with R62: every byte is covered by one row of the opcode table, and it is the row that names
the decoded instruction and its operand use (R61). Rests on: the use column of R61 is derived in the
spec. -/
def Obligations.EveryByteIsInExactlyOneTableRow : Prop :=
  ∀ insn : Byte,
    (opcodeTable.filter (fun r => r.covers insn)).map (fun r => (r.mnemonic, r.use)) =
      [((decodeByte insn).mnemonic, (decodeByte insn).operandUse)]

/-- R62: bytes written out from the table's bit patterns, one of each family and of each operand
use. -/
def Obligations.SampleBytesDecode : Prop :=
  decodeByte 0b00010011#8 = .lda 0b0011#4 ∧ decodeByte 0b01000101#8 = .sta 0b0101#4 ∧
  decodeByte 0b01010111#8 = .ldi 0b0111#4 ∧ decodeByte 0b00100001#8 = .add 0b0001#4 ∧
  decodeByte 0b00110110#8 = .sub 0b0110#4 ∧ decodeByte 0b01101111#8 = .jmp 0b1111#4 ∧
  decodeByte 0b00001010#8 = .nop 0b1010#4 ∧ decodeByte 0b10100101#8 = .undefA 0b0101#4 ∧
  decodeByte 0b11110111#8 = .hlt 0b0111#4

/-- Decoding an encoded instruction gives it back and leaves what follows; and a byte decodes to an
instruction exactly when the instruction encodes to that byte. Every instruction, every operand;
rests on the ignored operand being kept in the syntax (log 8). -/
def Obligations.DecodeAndEncodeAgree : Prop :=
  ∀ (i : Instr) (insn : Byte) (rest : List Byte),
    decode (encode i ++ rest) = .ok (i, rest) ∧
    (decode (insn :: rest) = .ok (i, rest) ↔ encode i = [insn])

/-- R67's notation (a decision of the spec, D16; log 15): a mnemonic line assembles to
`(op << 4) | n`, NOP and HLT with operand 0, `.byte v` to v, a label to nothing; a number that does
not fit is an error. -/
def Obligations.AssemblerLinesGiveTheirBytes : Prop :=
  (∀ n, n < 16 →
    assembleLine (.lda n) = .ok [BitVec.ofNat 8 (0x1 <<< 4 ||| n)] ∧
    assembleLine (.add n) = .ok [BitVec.ofNat 8 (0x2 <<< 4 ||| n)] ∧
    assembleLine (.sub n) = .ok [BitVec.ofNat 8 (0x3 <<< 4 ||| n)] ∧
    assembleLine (.sta n) = .ok [BitVec.ofNat 8 (0x4 <<< 4 ||| n)] ∧
    assembleLine (.ldi n) = .ok [BitVec.ofNat 8 (0x5 <<< 4 ||| n)] ∧
    assembleLine (.jmp n) = .ok [BitVec.ofNat 8 (0x6 <<< 4 ||| n)]) ∧
  assembleLine .nop = .ok [0x00#8] ∧ assembleLine .hlt = .ok [0xF0#8] ∧
  (∀ v, v < 256 → assembleLine (.byte v) = .ok [BitVec.ofNat 8 v]) ∧
  (∀ name, assembleLine (.label name) = .ok []) ∧
  (∀ n, 16 ≤ n → ∀ line ∈ [AsmLine.lda n, .add n, .sub n, .sta n, .ldi n, .jmp n],
    assembleLine line = .error (.numberTooWide line)) ∧
  (∀ v, 256 ≤ v → assembleLine (.byte v) = .error (.numberTooWide (.byte v)))

/-! ## The instructions, one by one: encoding, completion, result, frame -/

/-- R100: LDA is the bytes 0x10..0x1F, completes in every state, loads the cell at its operand into A
and changes nothing else. -/
def Obligations.LdaLoadsTheAddressedCell : Prop :=
  ∀ (imm : Nibble) (s : State),
    encode (.lda imm) = [BitVec.ofNat 8 (0x10 + imm.toNat)] ∧
    decodeByte (BitVec.ofNat 8 (0x10 + imm.toNat)) = .lda imm ∧
    ∃ t, exec (.lda imm) s = .next t ∧ t.a = s.memRead (BitVec.ofNat 8 imm.toNat) ∧
      t.b = s.b ∧ t.pc = s.pc ∧ t.halted = s.halted ∧ SameMemory s t

/-- R101: STA is the bytes 0x40..0x4F, completes in every state, stores A in the cell at its operand
and changes no register, no flag and no other cell. -/
def Obligations.StaStoresToTheAddressedCell : Prop :=
  ∀ (imm : Nibble) (s : State),
    encode (.sta imm) = [BitVec.ofNat 8 (0x40 + imm.toNat)] ∧
    decodeByte (BitVec.ofNat 8 (0x40 + imm.toNat)) = .sta imm ∧
    (effectiveAddr imm).toNat = imm.toNat ∧
    ∃ t, exec (.sta imm) s = .next t ∧ t.memRead (effectiveAddr imm) = s.a ∧
      SameMemoryBut (effectiveAddr imm) s t ∧
      t.a = s.a ∧ t.b = s.b ∧ t.pc = s.pc ∧ t.halted = s.halted

/-- R102: LDI is the bytes 0x50..0x5F, completes in every state, sets A to its operand and changes
nothing else, B included. -/
def Obligations.LdiLoadsTheLiteral : Prop :=
  ∀ (imm : Nibble) (s : State),
    encode (.ldi imm) = [BitVec.ofNat 8 (0x50 + imm.toNat)] ∧
    decodeByte (BitVec.ofNat 8 (0x50 + imm.toNat)) = .ldi imm ∧
    ∃ t, exec (.ldi imm) s = .next t ∧ t.a.toNat = imm.toNat ∧
      t.b = s.b ∧ t.pc = s.pc ∧ t.halted = s.halted ∧ SameMemory s t

/-- R110: ADD is the bytes 0x20..0x2F, completes in every state, sets B to its operand and A to the
sum modulo 256, and changes nothing else: no flag and no memory. -/
def Obligations.AddAddsTheLiteralModulo256 : Prop :=
  ∀ (imm : Nibble) (s : State),
    encode (.add imm) = [BitVec.ofNat 8 (0x20 + imm.toNat)] ∧
    decodeByte (BitVec.ofNat 8 (0x20 + imm.toNat)) = .add imm ∧
    ∃ t, exec (.add imm) s = .next t ∧ t.b.toNat = imm.toNat ∧
      t.a.toNat = (s.a.toNat + imm.toNat) % 256 ∧
      t.pc = s.pc ∧ t.halted = s.halted ∧ SameMemory s t

/-- R111: SUB is the bytes 0x30..0x3F, completes in every state, sets B to its operand and A to the
difference modulo 256, and changes nothing else: no flag and no memory. -/
def Obligations.SubSubtractsTheLiteralModulo256 : Prop :=
  ∀ (imm : Nibble) (s : State),
    encode (.sub imm) = [BitVec.ofNat 8 (0x30 + imm.toNat)] ∧
    decodeByte (BitVec.ofNat 8 (0x30 + imm.toNat)) = .sub imm ∧
    ∃ t, exec (.sub imm) s = .next t ∧ t.b.toNat = imm.toNat ∧
      t.a.toNat = (s.a.toNat + 256 - imm.toNat) % 256 ∧
      t.pc = s.pc ∧ t.halted = s.halted ∧ SameMemory s t

/-- R120: NOP is the bytes 0x00..0x0F and does nothing; a step over one of its bytes only advances
PC. -/
def Obligations.NopOnlyAdvancesPc : Prop :=
  ∀ (imm : Nibble) (s : State),
    encode (.nop imm) = [BitVec.ofNat 8 imm.toNat] ∧
    decodeByte (BitVec.ofNat 8 imm.toNat) = .nop imm ∧
    exec (.nop imm) s = .next s ∧
    (s.memRead s.pc = BitVec.ofNat 8 imm.toNat → step s = .next { s with pc := s.pc + 1#8 })

/-- R121: JMP is the bytes 0x60..0x6F, completes in every state, sets PC to its operand whatever PC
was, and changes nothing else. -/
def Obligations.JmpSetsPcToTheTarget : Prop :=
  ∀ (imm : Nibble) (s : State),
    encode (.jmp imm) = [BitVec.ofNat 8 (0x60 + imm.toNat)] ∧
    decodeByte (BitVec.ofNat 8 (0x60 + imm.toNat)) = .jmp imm ∧
    ∃ t, exec (.jmp imm) s = .next t ∧ t.pc.toNat = imm.toNat ∧
      t.a = s.a ∧ t.b = s.b ∧ t.halted = s.halted ∧ SameMemory s t

/-- R122: HLT is the bytes 0xF0..0xFF, completes in every state, sets the flag whatever it was, and
changes nothing else: a step over one of its bytes leaves PC at the address after it. -/
def Obligations.HltSetsHalted : Prop :=
  ∀ (imm : Nibble) (s : State),
    encode (.hlt imm) = [BitVec.ofNat 8 (0xF0 + imm.toNat)] ∧
    decodeByte (BitVec.ofNat 8 (0xF0 + imm.toNat)) = .hlt imm ∧
    ∃ t, exec (.hlt imm) s = .next t ∧ t.halted = true ∧
      t.a = s.a ∧ t.b = s.b ∧ t.pc = s.pc ∧ SameMemory s t ∧
      (s.memRead s.pc = BitVec.ofNat 8 (0xF0 + imm.toNat) →
        step s = .next { s with pc := s.pc + 1#8, halted := true })

/-- R123: each of the eight unassigned opcodes is the sixteen bytes of its high nibble and does
nothing in any state; a step over one of its bytes only advances PC. -/
def Obligations.UnassignedOpcodesOnlyAdvancePc : Prop :=
  ∀ (imm : Nibble) (s : State),
    ∀ p ∈ [(0x70, Instr.undef7 imm), (0x80, .undef8 imm), (0x90, .undef9 imm), (0xA0, .undefA imm),
      (0xB0, .undefB imm), (0xC0, .undefC imm), (0xD0, .undefD imm), (0xE0, .undefE imm)],
      encode p.2 = [BitVec.ofNat 8 (p.1 + imm.toNat)] ∧
      decodeByte (BitVec.ofNat 8 (p.1 + imm.toNat)) = p.2 ∧
      exec p.2 s = .next s ∧
      (s.memRead s.pc = BitVec.ofNat 8 (p.1 + imm.toNat) →
        step s = .next { s with pc := s.pc + 1#8 })

/-- R140: every instruction completes in every state, every step completes, and there is no reason
for a fault. -/
def Obligations.NothingEverStops : Prop :=
  (∀ (i : Instr) (s : State), ∃ t, exec i s = .next t) ∧ (∀ s : State, ∃ t, step s = .next t) ∧
  (Fault → False)

/-- R65 (derived in the spec): the operand of NOP, of HLT and of the unassigned opcodes makes no
difference. -/
def Obligations.IgnoredOperandMakesNoDifference : Prop :=
  ∀ (i j : Instr) (s : State),
    i.operandUse = .ignored → j.opcode = i.opcode → exec j s = exec i s

/-! ## The step -/

/-- When the byte at PC decodes to an instruction, a step is the execute phase of that instruction in
the state with PC advanced (40_execution_cycle.md section 1). Rests on: `step` does not look at
`halted`, D7 (log 4). -/
def Obligations.StepRunsTheDecodedInstruction : Prop :=
  ∀ (s : State) (i : Instr),
    decode [s.memRead s.pc] = .ok (i, []) → step s = exec i { s with pc := s.pc + 1#8 }

/-- R80: the whole step, the spec's case table over the numbers the bits stand for. Every step
completes; what it leaves in A, B, PC, halted and every cell is a function of what was there. -/
def Obligations.StepFollowsTheCaseTable : Prop :=
  ∀ s : State, ∃ t, step s = .next t ∧
    (let insn := (s.mem.read s.pc.toNat).toNat
     let op := insn / 16
     let imm := insn % 16
     t.a.toNat =
       (if op = 0x1 then (s.mem.read imm).toNat
        else if op = 0x2 then (s.a.toNat + imm) % 256
        else if op = 0x3 then (s.a.toNat + 256 - imm) % 256
        else if op = 0x5 then imm
        else s.a.toNat) ∧
     t.b.toNat = (if op = 0x2 ∨ op = 0x3 then imm else s.b.toNat) ∧
     t.pc.toNat = (if op = 0x6 then imm else (s.pc.toNat + 1) % 256) ∧
     t.halted = (s.halted || decide (op = 0xF)) ∧
     ∀ x, x < 256 → (t.mem.read x).toNat =
       (if op = 0x4 ∧ x = imm then s.a.toNat else (s.mem.read x).toNat))

/-- R81: a step executes the byte at PC in the state with PC advanced by 1 modulo 256, and leaves
that advanced PC unless the byte is a JMP, which leaves the value it writes. -/
def Obligations.FetchAdvancesPcBeforeExecute : Prop :=
  ∀ s : State,
    step s = exec (decodeByte (s.memRead s.pc)) { s with pc := s.pc + 1#8 } ∧
    (s.pc + 1#8).toNat = (s.pc.toNat + 1) % 256 ∧
    ∃ t, step s = .next t ∧
      ((s.memRead s.pc).toNat / 16 ≠ 0x6 → t.pc = s.pc + 1#8) ∧
      ((s.memRead s.pc).toNat / 16 = 0x6 → t.pc.toNat = (s.memRead s.pc).toNat % 16)

/-- R24: the execute phase sees the advanced PC, JMP overwrites it, no other instruction writes
it. -/
def Obligations.OnlyJmpWritesPcInExecute : Prop :=
  (∀ s : State, step s = exec (decodeByte (s.memRead s.pc)) { s with pc := s.pc + 1#8 }) ∧
  (∀ (imm : Nibble) (s : State), ∃ t, exec (.jmp imm) s = .next t ∧ t.pc.toNat = imm.toNat) ∧
  (∀ (i : Instr) (s t : State), exec i s = .next t → (∀ imm, i ≠ .jmp imm) → t.pc = s.pc)

/-- Control reaches the cells 0x10..0xFF by sequential fetch only (43_control.md section 2). -/
def Obligations.HighCellsAreReachedSequentially : Prop :=
  ∀ s t : State, step s = .next t → 16 ≤ t.pc.toNat → t.pc.toNat = (s.pc.toNat + 1) % 256

/-- A step over an STA whose target is the next instruction's cell: the next step fetches and
executes the stored byte (20_memory.md section 5, 70_reset_and_hazards.md section 3; derived in the
spec). -/
def Obligations.StoredByteIsFetchedNext : Prop :=
  ∀ s : State,
    (s.memRead s.pc).toNat / 16 = 0x4 →
    (s.memRead s.pc).toNat % 16 = (s.pc.toNat + 1) % 256 →
    ∃ t, step s = .next t ∧ t.memRead t.pc = s.a ∧
      step t = exec (decodeByte s.a) { t with pc := t.pc + 1#8 }

/-! ## Registers and the flag -/

/-- R21: who reads and who writes A. An instruction that changes A is LDA, LDI, ADD or SUB; LDA and
LDI give A the same value whatever it was; ADD, SUB and STA pass a change of A on; no other
instruction reads or writes it. -/
def Obligations.WhoReadsAndWritesA : Prop :=
  (∀ (i : Instr) (s t : State), exec i s = .next t → t.a ≠ s.a →
    i.opcode = 0x1#4 ∨ i.opcode = 0x2#4 ∨ i.opcode = 0x3#4 ∨ i.opcode = 0x5#4) ∧
  (∀ (i : Instr) (s t : State) (v : Byte), exec i s = .next t →
    i.opcode ≠ 0x2#4 → i.opcode ≠ 0x3#4 → i.opcode ≠ 0x4#4 →
    exec i { s with a := v } =
      .next { t with a := if i.opcode = 0x1#4 ∨ i.opcode = 0x5#4 then t.a else v }) ∧
  (∀ (imm : Nibble) (s t u : State) (v : Byte), v ≠ s.a →
    (exec (.add imm) s = .next t → exec (.add imm) { s with a := v } = .next u → u.a ≠ t.a) ∧
    (exec (.sub imm) s = .next t → exec (.sub imm) { s with a := v } = .next u → u.a ≠ t.a) ∧
    (exec (.sta imm) s = .next t → exec (.sta imm) { s with a := v } = .next u →
      u.memRead (effectiveAddr imm) ≠ t.memRead (effectiveAddr imm)))

/-- 10_state.md section 1 on B (partly derived in the spec): a step never reads the B it finds. Two
states that differ in B alone step to states that differ in B alone, and to one state when the step
is an ADD or a SUB, which writes its operand there; no other step writes B. -/
def Obligations.NoStepReadsTheOldB : Prop :=
  ∀ (s : State) (v : Byte), ∃ t, step s = .next t ∧
    (((s.memRead s.pc).toNat / 16 = 0x2 ∨ (s.memRead s.pc).toNat / 16 = 0x3) →
      t.b.toNat = (s.memRead s.pc).toNat % 16 ∧ step { s with b := v } = .next t) ∧
    ((s.memRead s.pc).toNat / 16 ≠ 0x2 → (s.memRead s.pc).toNat / 16 ≠ 0x3 →
      t.b = s.b ∧ step { s with b := v } = .next { t with b := v })

/-- 10_state.md section 3 on `halted`: HLT alone writes it, setting it; reset and power-on clear it;
no instruction reads it; the run control and the host do. Rests on: run tests it first, D8 (log 12);
the port `halted_out`, D11 (log 14). -/
def Obligations.WhoReadsAndWritesHalted : Prop :=
  (∀ (i : Instr) (s t : State), exec i s = .next t → t.halted ≠ s.halted →
    i.opcode = 0xF#4 ∧ t.halted = true) ∧
  (∀ (i : Instr) (s t : State) (h : Bool), exec i s = .next t →
    exec i { s with halted := h } = .next { t with halted := h || decide (i.opcode = 0xF#4) }) ∧
  State.reset.halted = false ∧ (∀ s : State, s.resetCore.halted = false) ∧
  (∀ s : State, edge Inputs.runRequest s = if s.halted then .next s else step s) ∧
  (∀ (x : Addr) (s : State), (outputs x s).haltedOut = s.halted)

/-- R26: once set, `halted` stays set, through every instruction and every step, until reset clears
it. -/
def Obligations.HaltedStaysSetUntilReset : Prop :=
  (∀ (i : Instr) (s t : State), s.halted = true → exec i s = .next t → t.halted = true) ∧
  (∀ s t : State, s.halted = true → step s = .next t → t.halted = true) ∧
  (∀ s : State, s.resetCore.halted = false)

/-- A step does the same whether or not `halted` is set, and leaves it set if it was. Rests on D7
(log 4). -/
def Obligations.HaltedDoesNotChangeAStep : Prop :=
  ∀ (s : State) (h : Bool), ∃ t, step s = .next t ∧
    step { s with halted := h } =
      .next { t with halted := h || decide ((s.memRead s.pc).toNat / 16 = 0xF) }

/-! ## Memory -/

/-- 20_memory.md section 1: MemWrite sets the one cell and changes no other cell and no register; STA
and the host's write use it. Rests on the write port and its place in the priority of an edge, the
spec's own decisions D3 to D5 (log 10). -/
def Obligations.WriteSetsOneCell : Prop :=
  (∀ (s : State) (x : Addr) (v : Byte),
    (s.memWrite x v).memRead x = v ∧ SameMemoryBut x s (s.memWrite x v) ∧
    { s.memWrite x v with mem := s.mem } = s) ∧
  (∀ (imm : Nibble) (s : State), exec (.sta imm) s = .next (s.memWrite (effectiveAddr imm) s.a)) ∧
  (∀ (s : State) (x : Addr) (v : Byte),
    edge (Inputs.writeRequest x v) s = .next (s.memWrite x v))

/-- The model's memory representation (log 3): two canonical memories that read alike at all 256
addresses are equal. -/
def Obligations.CanonicalMemoriesThatReadAlikeAreEqual : Prop :=
  ∀ m n : Memory, m.wf → n.wf → (∀ x, x < 256 → m.read x = n.read x) → m = n

/-- 10_state.md section 5: a cell that an edge changes is the target of that edge's host write, or
lies in 0..15 and is the target of the STA that the edge's step executed. Rests on the ports, D3 to
D5 (log 10). -/
def Obligations.OnlyStaAndHostWriteChangeACell : Prop :=
  ∀ (inp : Inputs) (s t : State) (x : Addr), edge inp s = .next t → t.memRead x ≠ s.memRead x →
    (inp.rst = false ∧ inp.memWe = true ∧ x = inp.memAddr ∧ t.memRead x = inp.memWdata) ∨
    (inp.rst = false ∧ inp.memWe = false ∧ (inp.step = true ∨ inp.run = true) ∧
      (s.memRead s.pc).toNat = 0x40 + x.toNat ∧ x.toNat < 16 ∧ t.memRead x = s.a)

/-- 20_memory.md section 3 (derived in the spec): a cell of 0x10..0xFF that is not the one fetched
is neither read nor written by a step. Canonical memory is a premise, since the statement equates
states (log 3). -/
def Obligations.StepIgnoresHighCellsItDoesNotFetch : Prop :=
  ∀ (s : State) (x : Addr) (v : Byte), s.mem.wf → 16 ≤ x.toNat → x ≠ s.pc →
    ∃ t, step s = .next t ∧ t.memRead x = s.memRead x ∧
      step (s.memWrite x v) = .next (t.memWrite x v)

/-! ## Reset and the invariant -/

/-- 70_reset_and_hazards.md section 1: the state at power-on. Rests on power-on being the source's
construction, D2 (log 1, log 2). -/
def Obligations.PowerOnState : Prop :=
  State.reset.a = 0x00#8 ∧ State.reset.b = 0x00#8 ∧ State.reset.pc = 0x00#8 ∧
  State.reset.halted = false ∧ ∀ x : Addr, State.reset.memRead x = 0x00#8

/-- 70_reset_and_hazards.md section 1: an edge with `rst` clears A, B, PC and halted, keeps every
cell, and the next step executes the byte at address 0. Rests on C4 and D6 (log 11) and on the
priority of reset, D5 (log 10). -/
def Obligations.ResetEdgeRestartsAtZero : Prop :=
  ∀ (inp : Inputs) (s : State), inp.rst = true →
    ∃ t, edge inp s = .next t ∧ t.a = 0x00#8 ∧ t.b = 0x00#8 ∧ t.pc = 0x00#8 ∧ t.halted = false ∧
      SameMemory s t ∧ step t = exec (decodeByte (s.memRead 0x00#8)) { t with pc := 0x01#8 }

/-- The invariant (canonical memory, log 3; B in 0..15, derived in 10_state.md section 1) holds at
power-on. -/
def Obligations.PowerOnMeetsTheInvariant : Prop := State.reset.Inv

/-- The invariant is kept by every step, from every state that has it. -/
def Obligations.StepKeepsTheInvariant : Prop :=
  ∀ s t : State, s.Inv → step s = .next t → t.Inv

/-- Whatever the host drives from power-on, the core is in a state with the invariant: every edge,
with every input, keeps it. Rests on the ports, D3 to D5 (log 10). -/
def Obligations.ReachableStatesMeetTheInvariant : Prop :=
  (∀ (inp : Inputs) (s t : State), s.Inv → edge inp s = .next t → t.Inv) ∧
  (∀ s, Reachable s → s.Inv)

/-! ## Run control and ports -/

/-- R85: from a Running state, the executor under fuel names a final state exactly when the run ends
within the fuel, in that state; it says "not ended" exactly otherwise; a run that never ends is one
that no fuel ends; and where a run ends, the last step was an HLT, PC is the address after it, and
nothing else changed in that step. -/
def Obligations.RunEndsExactlyAtItsHalt : Prop :=
  ∀ s : State, s.halted = false →
    (∀ n t, runWithFuel n s = .ended t ↔ ∃ k, k ≤ n ∧ EndsAfter s k t) ∧
    (∀ n, runWithFuel n s = .notEnded ↔ ∀ k t, k ≤ n → ¬ EndsAfter s k t) ∧
    (Hangs s ↔ ∀ n, runWithFuel n s = .notEnded) ∧
    (∀ k t, EndsAfter s k t → ∃ u, stepN (k - 1) s = .next u ∧ u.halted = false ∧
      (u.memRead u.pc).toNat / 16 = 0xF ∧ t = { u with pc := u.pc + 1#8, halted := true })

/-- From every state whose 256 cells all hold a no-op (high nibble 0x0 or 0x7..0xE), k steps advance PC
by k modulo 256 and change nothing else, and the run of a Running one hangs. So does the run of an
unloaded core (43_control.md section 1, derived in the spec). Rests on: a step does not look at
`halted`, D7 (log 4); for the unloaded core, power-on memory is zero, D2 (log 2). -/
def Obligations.UnloadedCoreRunsNopsForever : Prop :=
  (∀ s : State,
    (∀ x : Addr, (s.memRead x).toNat / 16 = 0x0 ∨
      (0x7 ≤ (s.memRead x).toNat / 16 ∧ (s.memRead x).toNat / 16 ≤ 0xE)) →
    (∀ k, stepN k s = .next { s with pc := s.pc + BitVec.ofNat 8 k }) ∧
    (s.halted = false → Hangs s)) ∧
  (∀ k, stepN k State.reset = .next { State.reset with pc := BitVec.ofNat 8 k }) ∧
  Hangs State.reset

/-- A run started in the Halted state takes no step (40_execution_cycle.md section 2). Rests on D8
(log 12). -/
def Obligations.RunStartedHaltedTakesNoStep : Prop :=
  ∀ (n : Nat) (s : State), s.halted = true → runWithFuel n s = .ended s

/-- Holding `run` for n edges is a run with n steps of fuel: the run ends in t within the fuel
exactly when the edges leave t, halted. Edges after the halt change nothing. Rests on the ports, D3
to D5 and D8 (log 10, log 12). -/
def Obligations.HeldRunPortIsTheRun : Prop :=
  ∀ (n : Nat) (s t : State),
    runWithFuel n s = .ended t ↔
      edges (List.replicate n Inputs.runRequest) s = .next t ∧ t.halted = true

/-- The action of an edge: reset, else host write, else step, else step when run and not halted, else
nothing (40_execution_cycle.md section 3). Rests on D5 (log 10). -/
def Obligations.EdgePriority : Prop :=
  ∀ (inp : Inputs) (s : State),
    (inp.rst = true → edge inp s = .next s.resetCore) ∧
    (inp.rst = false → inp.memWe = true →
      edge inp s = .next (s.memWrite inp.memAddr inp.memWdata)) ∧
    (inp.rst = false → inp.memWe = false → inp.step = true → edge inp s = step s) ∧
    (inp.rst = false → inp.memWe = false → inp.step = false → inp.run = true →
      s.halted = false → edge inp s = step s) ∧
    (inp.rst = false → inp.memWe = false → inp.step = false →
      (inp.run = false ∨ s.halted = true) → edge inp s = .next s)

/-- A host write, seen at the ports: the written cell reads back, every other cell and every register
output is as before (40_execution_cycle.md section 3). Rests on D4, D10 to D12 (log 14). -/
def Obligations.HostWriteReadsBackAtThePorts : Prop :=
  ∀ (inp : Inputs) (s : State), inp.rst = false → inp.memWe = true →
    ∃ t, edge inp s = .next t ∧ (outputs inp.memAddr t).memRdata = inp.memWdata ∧
      (∀ x, x ≠ inp.memAddr → outputs x t = outputs x s) ∧
      (outputs inp.memAddr t).aOut = s.a ∧ (outputs inp.memAddr t).bOut = s.b ∧
      (outputs inp.memAddr t).pcOut = s.pc ∧ (outputs inp.memAddr t).haltedOut = s.halted

/-- 60_exceptions.md section 6: through any edges without reset, a Halted core stays Halted; without
a forced step too, its registers and PC are frozen, and without a host write too, its whole state.
Rests on the ports, D3 to D5, and D7 (log 10, log 4). -/
def Obligations.HaltedCoreWaitsForTheHost : Prop :=
  ∀ (ins : List Inputs) (s t : State), s.halted = true → edges ins s = .next t →
    ((∀ inp ∈ ins, inp.rst = false) → t.halted = true) ∧
    ((∀ inp ∈ ins, inp.rst = false ∧ (inp.step = false ∨ inp.memWe = true)) →
      { t with mem := s.mem } = s) ∧
    ((∀ inp ∈ ins, inp.rst = false ∧ inp.step = false ∧ inp.memWe = false) → t = s)

/-- `copy_in` under `truncate` (20_memory.md section 4): after it, each cell holds the byte whose
address it is, if there is one, and else what it held. The parameter is open, D9 (log 13). -/
def Obligations.CopyInTruncateFillsUpToTheTop : Prop :=
  ∀ (addr : Addr) (bytes : List Byte) (s : State),
    { s.copyIn .truncate addr bytes with mem := s.mem } = s ∧
    ∀ x : Addr, (s.copyIn .truncate addr bytes).memRead x =
      if addr.toNat ≤ x.toNat then bytes[x.toNat - addr.toNat]?.getD (s.memRead x)
      else s.memRead x

/-- `copy_in` under `wrap` (20_memory.md section 4), runs of more than 256 bytes included: each cell
holds the last byte whose address is congruent to it modulo 256, if there is one, and else what it
held. The parameter is open, D9 (log 13). -/
def Obligations.CopyInWrapLaterByteWins : Prop :=
  ∀ (addr : Addr) (bytes : List Byte) (s : State),
    { s.copyIn .wrap addr bytes with mem := s.mem } = s ∧
    ∀ x : Addr,
      (∀ (i : Nat) (v : Byte), bytes[i]? = some v → (addr.toNat + i) % 256 = x.toNat →
        (∀ j, i < j → j < bytes.length → (addr.toNat + j) % 256 ≠ x.toNat) →
        (s.copyIn .wrap addr bytes).memRead x = v) ∧
      ((∀ i, i < bytes.length → (addr.toNat + i) % 256 ≠ x.toNat) →
        (s.copyIn .wrap addr bytes).memRead x = s.memRead x)

/-- `copy_in` is one write edge per byte written, in order, and within the capacity the open
parameter makes no difference (20_memory.md section 4, 40_execution_cycle.md section 3). Rests on
D4 and D9 (log 13). -/
def Obligations.CopyInIsASequenceOfHostWrites : Prop :=
  (∀ (ov : Config.CopyInOverflow) (addr : Addr) (bytes : List Byte) (s : State),
    edges (copyInRequests ov addr bytes) s = .next (s.copyIn ov addr bytes) ∧
    (copyInRequests ov addr bytes).length ≤ bytes.length) ∧
  (∀ (addr : Addr) (bytes : List Byte) (s : State), addr.toNat + bytes.length ≤ 256 →
    s.copyIn .wrap addr bytes = s.copyIn .truncate addr bytes ∧
    copyInRequests .wrap addr bytes = copyInRequests .truncate addr bytes ∧
    (copyInRequests .wrap addr bytes).length = bytes.length)
end

