-- ==== Sys2Proof/Laws/State.lean ====
section
/-! SUPPORT. What each state update does to each field, and reads of a state's memory. -/

namespace Sys2Proof.Machine

@[simp] theorem State.setA_a (s : State) (v : Byte) : (s.setA v).a = v := rfl
@[simp] theorem State.setA_b (s : State) (v : Byte) : (s.setA v).b = s.b := rfl
@[simp] theorem State.setA_pc (s : State) (v : Byte) : (s.setA v).pc = s.pc := rfl
@[simp] theorem State.setA_halted (s : State) (v : Byte) : (s.setA v).halted = s.halted := rfl
@[simp] theorem State.setA_mem (s : State) (v : Byte) : (s.setA v).mem = s.mem := rfl
@[simp] theorem State.setA_memRead (s : State) (v : Byte) (x : Addr) :
    (s.setA v).memRead x = s.memRead x := rfl

@[simp] theorem State.setB_a (s : State) (v : Byte) : (s.setB v).a = s.a := rfl
@[simp] theorem State.setB_b (s : State) (v : Byte) : (s.setB v).b = v := rfl
@[simp] theorem State.setB_pc (s : State) (v : Byte) : (s.setB v).pc = s.pc := rfl
@[simp] theorem State.setB_halted (s : State) (v : Byte) : (s.setB v).halted = s.halted := rfl
@[simp] theorem State.setB_mem (s : State) (v : Byte) : (s.setB v).mem = s.mem := rfl
@[simp] theorem State.setB_memRead (s : State) (v : Byte) (x : Addr) :
    (s.setB v).memRead x = s.memRead x := rfl

@[simp] theorem State.setPc_a (s : State) (t : Addr) : (s.setPc t).a = s.a := rfl
@[simp] theorem State.setPc_b (s : State) (t : Addr) : (s.setPc t).b = s.b := rfl
@[simp] theorem State.setPc_pc (s : State) (t : Addr) : (s.setPc t).pc = t := rfl
@[simp] theorem State.setPc_halted (s : State) (t : Addr) : (s.setPc t).halted = s.halted := rfl
@[simp] theorem State.setPc_mem (s : State) (t : Addr) : (s.setPc t).mem = s.mem := rfl
@[simp] theorem State.setPc_memRead (s : State) (t x : Addr) :
    (s.setPc t).memRead x = s.memRead x := rfl

@[simp] theorem State.advancePc_a (s : State) : s.advancePc.a = s.a := rfl
@[simp] theorem State.advancePc_b (s : State) : s.advancePc.b = s.b := rfl
@[simp] theorem State.advancePc_pc (s : State) : s.advancePc.pc = s.pc + 1#8 := rfl
@[simp] theorem State.advancePc_halted (s : State) : s.advancePc.halted = s.halted := rfl
@[simp] theorem State.advancePc_mem (s : State) : s.advancePc.mem = s.mem := rfl
@[simp] theorem State.advancePc_memRead (s : State) (x : Addr) :
    s.advancePc.memRead x = s.memRead x := rfl

@[simp] theorem State.setHalted_a (s : State) : s.setHalted.a = s.a := rfl
@[simp] theorem State.setHalted_b (s : State) : s.setHalted.b = s.b := rfl
@[simp] theorem State.setHalted_pc (s : State) : s.setHalted.pc = s.pc := rfl
@[simp] theorem State.setHalted_halted (s : State) : s.setHalted.halted = true := rfl
@[simp] theorem State.setHalted_mem (s : State) : s.setHalted.mem = s.mem := rfl
@[simp] theorem State.setHalted_memRead (s : State) (x : Addr) :
    s.setHalted.memRead x = s.memRead x := rfl

@[simp] theorem State.memWrite_a (s : State) (x : Addr) (v : Byte) : (s.memWrite x v).a = s.a := rfl
@[simp] theorem State.memWrite_b (s : State) (x : Addr) (v : Byte) : (s.memWrite x v).b = s.b := rfl
@[simp] theorem State.memWrite_pc (s : State) (x : Addr) (v : Byte) :
    (s.memWrite x v).pc = s.pc := rfl
@[simp] theorem State.memWrite_halted (s : State) (x : Addr) (v : Byte) :
    (s.memWrite x v).halted = s.halted := rfl
@[simp] theorem State.memWrite_mem (s : State) (x : Addr) (v : Byte) :
    (s.memWrite x v).mem = s.mem.write x.toNat v := rfl

@[simp] theorem State.resetCore_a (s : State) : s.resetCore.a = 0x00#8 := rfl
@[simp] theorem State.resetCore_b (s : State) : s.resetCore.b = 0x00#8 := rfl
@[simp] theorem State.resetCore_pc (s : State) : s.resetCore.pc = 0x00#8 := rfl
@[simp] theorem State.resetCore_halted (s : State) : s.resetCore.halted = false := rfl
@[simp] theorem State.resetCore_mem (s : State) : s.resetCore.mem = s.mem := rfl
@[simp] theorem State.resetCore_memRead (s : State) (x : Addr) :
    s.resetCore.memRead x = s.memRead x := rfl

end Sys2Proof.Machine
end

