-- ==== Sys2Proof/Laws/Memory.lean ====
section
/-! SUPPORT. The memory: read after write, that every write keeps the canonical form, and that a
canonical memory is determined by what it reads. -/

namespace Sys2Proof.Machine

@[simp] theorem Memory.read_nil (addr : Nat) : Memory.read [] addr = Config.powerOnByte := rfl

theorem Memory.read_cons (c : Host.Cell) (m : Memory) (addr : Nat) :
    Memory.read (c :: m) addr = if c.1 = addr then c.2 else Memory.read m addr := rfl

theorem Memory.read_erase (m : Memory) (x addr : Nat) :
    (Memory.erase m x).read addr = if addr = x then Config.powerOnByte else m.read addr := by
  induction m with
  | nil => simp [Memory.erase, Memory.read]
  | cons c m ih =>
    obtain ⟨k, w⟩ := c
    simp only [Memory.erase, Memory.read]
    split
    · rw [ih]; subst_vars; split
      · rfl
      · rw [if_neg (by omega)]
    · simp only [Memory.read, ih]; split_ifs <;> first | rfl | omega

theorem Memory.mem_erase {m : Memory} {x : Nat} {c : Host.Cell} :
    c ∈ Memory.erase m x ↔ c ∈ m ∧ c.1 ≠ x := by
  induction m with
  | nil => simp [Memory.erase]
  | cons d m ih =>
    obtain ⟨k, w⟩ := d
    simp only [Memory.erase]
    split
    · subst_vars; rw [ih, List.mem_cons]
      constructor
      · rintro ⟨h, hne⟩; exact ⟨.inr h, hne⟩
      · rintro ⟨rfl | h, hne⟩
        · exact absurd rfl hne
        · exact ⟨h, hne⟩
    · rename_i hne
      rw [List.mem_cons, List.mem_cons, ih]
      constructor
      · rintro (rfl | ⟨h, h'⟩)
        · exact ⟨.inl rfl, hne⟩
        · exact ⟨.inr h, h'⟩
      · rintro ⟨rfl | h, h'⟩
        · exact .inl rfl
        · exact .inr ⟨h, h'⟩

/-- An address no entry names reads as the power-on byte. -/
theorem Memory.read_of_not_listed {m : Memory} {addr : Nat} (h : ∀ c ∈ m, c.1 ≠ addr) :
    m.read addr = Config.powerOnByte := by
  induction m with
  | nil => rfl
  | cons c m ih =>
    rw [Memory.read_cons, if_neg (h c (List.mem_cons_self ..))]
    exact ih fun d hd => h d (List.mem_cons_of_mem _ hd)

theorem Memory.mem_insert {m : Memory} {x : Nat} {v : Byte} {c : Host.Cell} :
    c ∈ Memory.insert m x v ↔ c = (x, v) ∨ c ∈ m := by
  induction m with
  | nil => simp [Memory.insert]
  | cons d m ih =>
    obtain ⟨k, w⟩ := d
    simp only [Memory.insert]
    split
    · simp
    · simp only [List.mem_cons, ih]; tauto

theorem Memory.read_insert {m : Memory} {x : Nat} (v : Byte) (hm : ∀ c ∈ m, c.1 ≠ x)
    (addr : Nat) : (Memory.insert m x v).read addr = if addr = x then v else m.read addr := by
  induction m with
  | nil => simp only [Memory.insert, Memory.read, eq_comm]
  | cons d m ih =>
    obtain ⟨k, w⟩ := d
    have hk : k ≠ x := hm (k, w) (List.mem_cons_self ..)
    have ih := ih fun c hc => hm c (List.mem_cons_of_mem _ hc)
    simp only [Memory.insert]
    split <;> simp only [Memory.read, ih] <;> split_ifs <;> first | rfl | omega

/-- A write sets the byte at its address and no other, in every memory. -/
theorem Memory.read_write (m : Memory) (x : Nat) (v : Byte) (addr : Nat) :
    (Memory.write m x v).read addr = if addr = x then v else m.read addr := by
  unfold Memory.write
  split
  · rename_i h; rw [Memory.read_erase, h]
  · rw [Memory.read_insert v (fun c hc => (Memory.mem_erase.1 hc).2), Memory.read_erase]
    split_ifs <;> rfl

/-- A read after a write, at the level of the state. -/
theorem State.memRead_memWrite (s : State) (x : Addr) (v : Byte) (addr : Addr) :
    (s.memWrite x v).memRead addr = if addr = x then v else s.memRead addr := by
  simp only [State.memRead, State.memWrite_mem, Memory.read_write, BitVec.toNat_inj]

theorem Memory.erase_sublist (m : Memory) (x : Nat) : (Memory.erase m x).Sublist m := by
  induction m with
  | nil => exact .slnil
  | cons d m ih =>
    obtain ⟨k, w⟩ := d
    simp only [Memory.erase]
    split
    · exact ih.cons _
    · exact ih.cons_cons _

theorem Memory.wf_nil : Memory.wf [] := ⟨.nil, fun _ h => absurd h List.not_mem_nil⟩

theorem Memory.wf_erase {m : Memory} (h : m.wf) (x : Nat) : (Memory.erase m x).wf :=
  ⟨h.1.sublist (Memory.erase_sublist m x), fun c hc => h.2 c (Memory.mem_erase.1 hc).1⟩

theorem Memory.pairwise_insert {m : Memory} {x : Nat} (v : Byte)
    (h : m.Pairwise fun p q => p.1 < q.1) (hm : ∀ c ∈ m, c.1 ≠ x) :
    (Memory.insert m x v).Pairwise fun p q => p.1 < q.1 := by
  induction m with
  | nil => exact List.pairwise_singleton ..
  | cons d m ih =>
    obtain ⟨k, w⟩ := d
    have hk : k ≠ x := hm (k, w) (List.mem_cons_self ..)
    obtain ⟨hd, ht⟩ := List.pairwise_cons.1 h
    simp only [Memory.insert]
    split
    · rename_i hlt
      refine List.pairwise_cons.2 ⟨fun c hc => ?_, h⟩
      rcases List.mem_cons.1 hc with rfl | hc
      · exact hlt
      · exact Nat.lt_trans hlt (hd c hc)
    · rename_i hle
      refine List.pairwise_cons.2
        ⟨fun c hc => ?_, ih ht fun c hc => hm c (List.mem_cons_of_mem _ hc)⟩
      rcases Memory.mem_insert.1 hc with rfl | hc
      · exact Nat.lt_of_le_of_ne (Nat.le_of_not_lt hle) hk
      · exact hd c hc

/-- Every write keeps the canonical form. -/
theorem Memory.wf_write {m : Memory} (h : m.wf) {x : Nat} (hx : x < Config.memSize) (v : Byte) :
    (Memory.write m x v).wf := by
  unfold Memory.write
  split
  · exact Memory.wf_erase h x
  · rename_i hv
    refine ⟨Memory.pairwise_insert v (Memory.wf_erase h x).1 fun c hc => (Memory.mem_erase.1 hc).2,
      fun c hc => ?_⟩
    rcases Memory.mem_insert.1 hc with rfl | hc
    · exact ⟨hx, hv⟩
    · exact (Memory.wf_erase h x).2 c hc

/-- A write through the state keeps the canonical form: an address is in range. -/
theorem State.memWrite_wf {s : State} (h : s.mem.wf) (x : Addr) (v : Byte) :
    (s.memWrite x v).mem.wf := Memory.wf_write h x.isLt v

/-- In canonical form an entry is what its address reads as. -/
theorem Memory.read_of_mem {m : Memory} (h : m.wf) {c : Host.Cell} (hc : c ∈ m) :
    m.read c.1 = c.2 := by
  induction m with
  | nil => exact absurd hc List.not_mem_nil
  | cons d m ih =>
    obtain ⟨hd, ht⟩ := List.pairwise_cons.1 h.1
    rw [Memory.read_cons]
    rcases List.mem_cons.1 hc with rfl | hc
    · rw [if_pos rfl]
    · rw [if_neg (Nat.ne_of_lt (hd c hc))]
      exact ih ⟨ht, fun e he => h.2 e (List.mem_cons_of_mem _ he)⟩ hc

/-- In canonical form exactly the listed cells read as something else than the power-on byte. -/
theorem Memory.mem_iff_read {m : Memory} (h : m.wf) {k : Nat} {v : Byte} :
    (k, v) ∈ m ↔ m.read k = v ∧ v ≠ Config.powerOnByte := by
  refine ⟨fun hc => ⟨Memory.read_of_mem h hc, (h.2 _ hc).2⟩, fun ⟨hr, hv⟩ => ?_⟩
  by_contra hn
  refine hv ?_
  rw [← hr]
  refine Memory.read_of_not_listed fun c hc heq => hn ?_
  have := Memory.read_of_mem h hc
  rw [heq, hr] at this
  exact (Prod.ext heq this.symm : c = (k, v)) ▸ hc

end Sys2Proof.Machine
end

