-- ==== Sys2Proof/Laws/Exec.lean ====
section
/-! SUPPORT. What `exec` answers for each instruction, what one step is, and what an edge is. -/

namespace Sys2Proof.Machine

/-- What ADD and SUB share: the operand in B, the result in A (spec/42_arithmetic.md R110, R111). -/
theorem withLiteralInB_eq (f : Byte → Byte → Byte) (imm : Nibble) (s : State) :
    withLiteralInB f imm s = { s with a := f s.a (literal imm), b := literal imm } := rfl

theorem noEffect_eq (s : State) : noEffect s = .next s := rfl

/-- Writes in order: the first, then the others. -/
theorem State.memWriteAll_cons (s : State) (w : Addr × Byte) (ws : List (Addr × Byte)) :
    s.memWriteAll (w :: ws) = (s.memWrite w.1 w.2).memWriteAll ws := rfl

/-- Writes change no register, not PC and not the flag. -/
theorem State.memWriteAll_registers (ws : List (Addr × Byte)) (s : State) :
    (s.memWriteAll ws).a = s.a ∧ (s.memWriteAll ws).b = s.b ∧ (s.memWriteAll ws).pc = s.pc ∧
      (s.memWriteAll ws).halted = s.halted := by
  induction ws generalizing s with
  | nil => exact ⟨rfl, rfl, rfl, rfl⟩
  | cons w ws ih => exact ih (s.memWrite w.1 w.2)

/-- Writes keep the canonical form. -/
theorem State.memWriteAll_wf (ws : List (Addr × Byte)) {s : State} (h : s.mem.wf) :
    (s.memWriteAll ws).mem.wf := by
  induction ws generalizing s with
  | nil => exact h
  | cons w ws ih => exact ih (State.memWrite_wf h w.1 w.2)

theorem exec_nop (imm : Nibble) (s : State) : exec (.nop imm) s = .next s := rfl
theorem exec_lda (imm : Nibble) (s : State) :
    exec (.lda imm) s = .next { s with a := s.memRead (effectiveAddr imm) } := rfl
theorem exec_add (imm : Nibble) (s : State) :
    exec (.add imm) s = .next { s with a := s.a + literal imm, b := literal imm } := rfl
theorem exec_sub (imm : Nibble) (s : State) :
    exec (.sub imm) s = .next { s with a := s.a - literal imm, b := literal imm } := rfl
theorem exec_sta (imm : Nibble) (s : State) :
    exec (.sta imm) s = .next (s.memWrite (effectiveAddr imm) s.a) := rfl
theorem exec_ldi (imm : Nibble) (s : State) :
    exec (.ldi imm) s = .next { s with a := literal imm } := rfl
theorem exec_jmp (imm : Nibble) (s : State) :
    exec (.jmp imm) s = .next { s with pc := jumpTarget imm } := rfl
theorem exec_hlt (imm : Nibble) (s : State) :
    exec (.hlt imm) s = .next { s with halted := true } := rfl
theorem exec_undef7 (imm : Nibble) (s : State) : exec (.undef7 imm) s = .next s := rfl
theorem exec_undef8 (imm : Nibble) (s : State) : exec (.undef8 imm) s = .next s := rfl
theorem exec_undef9 (imm : Nibble) (s : State) : exec (.undef9 imm) s = .next s := rfl
theorem exec_undefA (imm : Nibble) (s : State) : exec (.undefA imm) s = .next s := rfl
theorem exec_undefB (imm : Nibble) (s : State) : exec (.undefB imm) s = .next s := rfl
theorem exec_undefC (imm : Nibble) (s : State) : exec (.undefC imm) s = .next s := rfl
theorem exec_undefD (imm : Nibble) (s : State) : exec (.undefD imm) s = .next s := rfl
theorem exec_undefE (imm : Nibble) (s : State) : exec (.undefE imm) s = .next s := rfl

/-- Everything an execute phase can do, with its instruction. -/
theorem exec_cases {i : Instr} {s t : State} (h : exec i s = .next t) :
    (i.operandUse = .ignored ∧ i.opcode ≠ 0xF#4 ∧ t = s) ∨
    (∃ imm, i = .lda imm ∧ t = { s with a := s.memRead (effectiveAddr imm) }) ∨
    (∃ imm, i = .add imm ∧ t = { s with a := s.a + literal imm, b := literal imm }) ∨
    (∃ imm, i = .sub imm ∧ t = { s with a := s.a - literal imm, b := literal imm }) ∨
    (∃ imm, i = .sta imm ∧ t = s.memWrite (effectiveAddr imm) s.a) ∨
    (∃ imm, i = .ldi imm ∧ t = { s with a := literal imm }) ∨
    (∃ imm, i = .jmp imm ∧ t = { s with pc := jumpTarget imm }) ∨
    (∃ imm, i = .hlt imm ∧ t = { s with halted := true }) := by
  cases i with
  | lda imm => cases h; exact .inr (.inl ⟨imm, rfl, rfl⟩)
  | add imm => cases h; exact .inr (.inr (.inl ⟨imm, rfl, rfl⟩))
  | sub imm => cases h; exact .inr (.inr (.inr (.inl ⟨imm, rfl, rfl⟩)))
  | sta imm => cases h; exact .inr (.inr (.inr (.inr (.inl ⟨imm, rfl, rfl⟩))))
  | ldi imm => cases h; exact .inr (.inr (.inr (.inr (.inr (.inl ⟨imm, rfl, rfl⟩)))))
  | jmp imm => cases h; exact .inr (.inr (.inr (.inr (.inr (.inr (.inl ⟨imm, rfl, rfl⟩))))))
  | hlt imm => cases h; exact .inr (.inr (.inr (.inr (.inr (.inr (.inr ⟨imm, rfl, rfl⟩))))))
  | nop imm => cases h; exact .inl ⟨rfl, by simp [Instr.opcode], rfl⟩
  | undef7 imm => cases h; exact .inl ⟨rfl, by simp [Instr.opcode], rfl⟩
  | undef8 imm => cases h; exact .inl ⟨rfl, by simp [Instr.opcode], rfl⟩
  | undef9 imm => cases h; exact .inl ⟨rfl, by simp [Instr.opcode], rfl⟩
  | undefA imm => cases h; exact .inl ⟨rfl, by simp [Instr.opcode], rfl⟩
  | undefB imm => cases h; exact .inl ⟨rfl, by simp [Instr.opcode], rfl⟩
  | undefC imm => cases h; exact .inl ⟨rfl, by simp [Instr.opcode], rfl⟩
  | undefD imm => cases h; exact .inl ⟨rfl, by simp [Instr.opcode], rfl⟩
  | undefE imm => cases h; exact .inl ⟨rfl, by simp [Instr.opcode], rfl⟩

/-- A step is the execute phase of the fetched instruction at the advanced `PC`. -/
theorem step_eq (s : State) : step s = exec s.fetchInstr { s with pc := s.pc + 1#8 } := rfl

/-- Everything an edge can do (spec/40_execution_cycle.md R90). -/
theorem edge_cases {inp : Inputs} {s t : State} (h : edge inp s = .next t) :
    (inp.rst = true ∧ t = s.resetCore) ∨
    (inp.rst = false ∧ inp.memWe = true ∧ t = s.memWrite inp.memAddr inp.memWdata) ∨
    (inp.rst = false ∧ inp.memWe = false ∧ (inp.step = true ∨ inp.run = true ∧ s.halted = false) ∧
      step s = .next t) ∨
    (inp.rst = false ∧ inp.memWe = false ∧ inp.step = false ∧ (inp.run = true → s.halted = true) ∧
      t = s) := by
  obtain ⟨rst, st, run, we, addr, wdata⟩ := inp
  cases rst
  · cases we
    · cases st
      · cases run
        · cases h; exact .inr (.inr (.inr ⟨rfl, rfl, rfl, nofun, rfl⟩))
        · cases hs : s.halted <;>
            simp only [edge, chooseAction, hs, Bool.not_true, Bool.not_false, Bool.and_true,
              Bool.and_false, if_true, if_false, Bool.false_eq_true] at h
          · exact .inr (.inr (.inl ⟨rfl, rfl, .inr ⟨rfl, rfl⟩, h⟩))
          · cases h; exact .inr (.inr (.inr ⟨rfl, rfl, rfl, fun _ => rfl, rfl⟩))
      · exact .inr (.inr (.inl ⟨rfl, rfl, .inl rfl, h⟩))
    · cases h; exact .inr (.inl ⟨rfl, rfl, rfl⟩)
  · cases h; exact .inl ⟨rfl, rfl⟩

end Sys2Proof.Machine
end

