-- ==== Sys2Proof/Laws/Operands.lean ====
section
/-! SUPPORT. Zero extension keeps the number (spec/00_scope.md R12). -/

namespace Sys2Proof.Machine

@[simp] theorem zext8_toNat (v : Nibble) : (zext8 v).toNat = v.toNat := by
  simp only [zext8, BitVec.zeroExtend, BitVec.toNat_setWidth]
  have := v.isLt
  omega

theorem literal_toNat (imm : Nibble) : (literal imm).toNat = imm.toNat := zext8_toNat imm
theorem effectiveAddr_toNat (imm : Nibble) : (effectiveAddr imm).toNat = imm.toNat := zext8_toNat imm
theorem jumpTarget_toNat (imm : Nibble) : (jumpTarget imm).toNat = imm.toNat := zext8_toNat imm

/-- An operand reaches 0..15 only (spec/10_state.md R31). -/
theorem zext8_lt (v : Nibble) : (zext8 v).toNat < 16 := zext8_toNat v ▸ v.isLt

end Sys2Proof.Machine
end

