-- ==== Sys2Proof/Laws/PerInstr.lean ====
section
/-! SUPPORT. Facts about every instruction as syntax, one lemma per constructor. -/

namespace Sys2Proof.Laws

/-- The two fields of an instruction's byte are its opcode and its operand (spec/30_encoding.md
R60). -/
def EncodeFields.Statement (i : Instr) : Prop :=
  opField (encodeByte i) = i.opcode ∧ immField (encodeByte i) = i.operand

/-- Exactly the row of the opcode table that names the instruction covers its byte
(spec/30_encoding.md R62). -/
def TableRow.Statement (i : Instr) : Prop :=
  (opcodeTable.filter (fun r => r.covers (encodeByte i))).map
    (fun r => (r.mnemonic, r.use)) = [(i.mnemonic, i.operandUse)]

theorem EncodeFields.nop : ∀ imm, EncodeFields.Statement (.nop imm) := by
  unfold EncodeFields.Statement; decide
theorem EncodeFields.lda : ∀ imm, EncodeFields.Statement (.lda imm) := by
  unfold EncodeFields.Statement; decide
theorem EncodeFields.add : ∀ imm, EncodeFields.Statement (.add imm) := by
  unfold EncodeFields.Statement; decide
theorem EncodeFields.sub : ∀ imm, EncodeFields.Statement (.sub imm) := by
  unfold EncodeFields.Statement; decide
theorem EncodeFields.sta : ∀ imm, EncodeFields.Statement (.sta imm) := by
  unfold EncodeFields.Statement; decide
theorem EncodeFields.ldi : ∀ imm, EncodeFields.Statement (.ldi imm) := by
  unfold EncodeFields.Statement; decide
theorem EncodeFields.jmp : ∀ imm, EncodeFields.Statement (.jmp imm) := by
  unfold EncodeFields.Statement; decide
theorem EncodeFields.undef7 : ∀ imm, EncodeFields.Statement (.undef7 imm) := by
  unfold EncodeFields.Statement; decide
theorem EncodeFields.undef8 : ∀ imm, EncodeFields.Statement (.undef8 imm) := by
  unfold EncodeFields.Statement; decide
theorem EncodeFields.undef9 : ∀ imm, EncodeFields.Statement (.undef9 imm) := by
  unfold EncodeFields.Statement; decide
theorem EncodeFields.undefA : ∀ imm, EncodeFields.Statement (.undefA imm) := by
  unfold EncodeFields.Statement; decide
theorem EncodeFields.undefB : ∀ imm, EncodeFields.Statement (.undefB imm) := by
  unfold EncodeFields.Statement; decide
theorem EncodeFields.undefC : ∀ imm, EncodeFields.Statement (.undefC imm) := by
  unfold EncodeFields.Statement; decide
theorem EncodeFields.undefD : ∀ imm, EncodeFields.Statement (.undefD imm) := by
  unfold EncodeFields.Statement; decide
theorem EncodeFields.undefE : ∀ imm, EncodeFields.Statement (.undefE imm) := by
  unfold EncodeFields.Statement; decide
theorem EncodeFields.hlt : ∀ imm, EncodeFields.Statement (.hlt imm) := by
  unfold EncodeFields.Statement; decide

theorem TableRow.nop : ∀ imm, TableRow.Statement (.nop imm) := by
  unfold TableRow.Statement; decide
theorem TableRow.lda : ∀ imm, TableRow.Statement (.lda imm) := by
  unfold TableRow.Statement; decide
theorem TableRow.add : ∀ imm, TableRow.Statement (.add imm) := by
  unfold TableRow.Statement; decide
theorem TableRow.sub : ∀ imm, TableRow.Statement (.sub imm) := by
  unfold TableRow.Statement; decide
theorem TableRow.sta : ∀ imm, TableRow.Statement (.sta imm) := by
  unfold TableRow.Statement; decide
theorem TableRow.ldi : ∀ imm, TableRow.Statement (.ldi imm) := by
  unfold TableRow.Statement; decide
theorem TableRow.jmp : ∀ imm, TableRow.Statement (.jmp imm) := by
  unfold TableRow.Statement; decide
theorem TableRow.undef7 : ∀ imm, TableRow.Statement (.undef7 imm) := by
  unfold TableRow.Statement; decide
theorem TableRow.undef8 : ∀ imm, TableRow.Statement (.undef8 imm) := by
  unfold TableRow.Statement; decide
theorem TableRow.undef9 : ∀ imm, TableRow.Statement (.undef9 imm) := by
  unfold TableRow.Statement; decide
theorem TableRow.undefA : ∀ imm, TableRow.Statement (.undefA imm) := by
  unfold TableRow.Statement; decide
theorem TableRow.undefB : ∀ imm, TableRow.Statement (.undefB imm) := by
  unfold TableRow.Statement; decide
theorem TableRow.undefC : ∀ imm, TableRow.Statement (.undefC imm) := by
  unfold TableRow.Statement; decide
theorem TableRow.undefD : ∀ imm, TableRow.Statement (.undefD imm) := by
  unfold TableRow.Statement; decide
theorem TableRow.undefE : ∀ imm, TableRow.Statement (.undefE imm) := by
  unfold TableRow.Statement; decide
theorem TableRow.hlt : ∀ imm, TableRow.Statement (.hlt imm) := by
  unfold TableRow.Statement; decide

end Sys2Proof.Laws
end

