-- ==== Sys2Proof/Tests/Slice0.lean ====
section
/-! SUPPORT. The model's own tests. Expected values come from spec/: the encodings from
30_encoding.md R62, the vectors from 95_test_vectors.md, by their ids. The witnesses show states and
operands that meet the hypotheses of each statement, clause by clause. -/

namespace Sys2Proof.Tests
open Sys2Proof.Machine

/-- A state with the given registers, flag and cells, every other cell 0x00. -/
def given (a b : Byte) (pc : Addr) (halted : Bool) (cells : List (Addr × Byte)) : State :=
  State.memWriteAll { a := a, b := b, pc := pc, halted := halted, mem := [] } cells

/-- A, B, PC and halted in the next state. -/
def regsAfter : Host.Outcome State Fault Refusal → Option (Byte × Byte × Addr × Bool)
  | .next t => some (t.a, t.b, t.pc, t.halted)
  | .fault _ => none
  | .refused _ => none

/-- A cell in the next state. -/
def cellAfter (x : Addr) : Host.Outcome State Fault Refusal → Option Byte
  | .next t => some (t.memRead x)
  | .fault _ => none
  | .refused _ => none

/-! ## Decoding and encoding: bytes written from R62's bit patterns -/

theorem test_decode_nop : decodeByte 0b00001010#8 = .nop 0b1010#4 := by decide
theorem test_decode_lda : decodeByte 0b00010011#8 = .lda 0b0011#4 := by decide
theorem test_decode_add : decodeByte 0b00100001#8 = .add 0b0001#4 := by decide
theorem test_decode_sub : decodeByte 0b00110110#8 = .sub 0b0110#4 := by decide
theorem test_decode_sta : decodeByte 0b01000101#8 = .sta 0b0101#4 := by decide
theorem test_decode_ldi : decodeByte 0b01010111#8 = .ldi 0b0111#4 := by decide
theorem test_decode_jmp : decodeByte 0b01101111#8 = .jmp 0b1111#4 := by decide
theorem test_decode_undef7 : decodeByte 0b01110001#8 = .undef7 0b0001#4 := by decide
theorem test_decode_undef8 : decodeByte 0b10001111#8 = .undef8 0b1111#4 := by decide
theorem test_decode_undef9 : decodeByte 0b10010100#8 = .undef9 0b0100#4 := by decide
theorem test_decode_undefA : decodeByte 0b10100101#8 = .undefA 0b0101#4 := by decide
theorem test_decode_undefB : decodeByte 0b10110010#8 = .undefB 0b0010#4 := by decide
theorem test_decode_undefC : decodeByte 0b11001000#8 = .undefC 0b1000#4 := by decide
theorem test_decode_undefD : decodeByte 0b11010011#8 = .undefD 0b0011#4 := by decide
theorem test_decode_undefE : decodeByte 0b11101111#8 = .undefE 0b1111#4 := by decide
theorem test_decode_hlt : decodeByte 0b11110111#8 = .hlt 0b0111#4 := by decide
theorem test_encode_sub : encode (.sub 0b0110#4) = [0b00110110#8] := by decide
/-- R66: one byte is consumed. -/
theorem test_decode_leaves_rest :
    decode [0x57#8, 0x21#8] = .ok (.ldi 0x7#4, [0x21#8]) := by rfl
theorem test_decode_nothing_is_refused : decode [] = .error .noByte := by rfl
theorem test_table_word : decodeTableWord 8 0x6F = some (.jmp 0xF#4) := by decide

/-! ## Well-formedness: what the checks refuse -/

theorem test_operand_16_is_ill_formed :
    ([.lda 16, .add 16, .sub 16, .sta 16, .ldi 16, .jmp 16] : List AsmLine).all
      (fun line => !line.wellFormed) = true := by decide
theorem test_byte_256_is_ill_formed : (AsmLine.byte 256).wellFormed = false := by decide
theorem test_boundary_numbers_are_well_formed :
    ([.ldi 15, .jmp 0, .byte 255, .nop, .hlt] : List AsmLine).all AsmLine.wellFormed = true := by
  decide
/-- The operand's type admits no ill-formed instruction (log 8). -/
theorem test_no_instruction_is_ill_formed (i : Instr) : i.wellFormed = true :=
  decide_eq_true i.operand.isLt
/-- R67: the source's scenario W7 as an assembler program. -/
theorem test_assemble :
    assemble [.ldi 7, .add 1, .label "x", .sub 6, .hlt] = .ok [0x57#8, 0x21#8, 0x36#8, 0xF0#8] := by
  rfl
theorem test_assemble_error :
    assemble [.nop, .ldi 16, .hlt] = .error (.numberTooWide (.ldi 16)) := by rfl

/-! ## One step per vector of 95_test_vectors.md -/

theorem test_L1_lda :
    regsAfter (step (given 0x00 0x00 0x20 false [(0x03, 0x42), (0x20, 0x13)])) =
      some (0x42, 0x00, 0x21, false) := by decide
theorem test_L2_lda_own_byte :
    regsAfter (step (given 0x00 0x00 0x00 false [(0x00, 0x10)])) =
      some (0x10, 0x00, 0x01, false) := by decide
theorem test_L4_sta :
    cellAfter 0x05 (step (given 0x99 0x00 0x20 false [(0x20, 0x45)])) = some 0x99 := by decide
/-- L6: the stored 0x00 leaves the memory's list. -/
theorem test_L6_sta_zero :
    cellAfter 0x0F (step (given 0x00 0x00 0x00 false [(0x00, 0x4F), (0x0F, 0xAB)])) =
      some 0x00 := by decide
theorem test_L7_ldi :
    regsAfter (step (given 0xC3 0x09 0x00 false [(0x00, 0x57)])) =
      some (0x07, 0x09, 0x01, false) := by decide
theorem test_A3_add_wraps :
    regsAfter (step (given 0xF5 0x03 0x00 false [(0x00, 0x2F)])) =
      some (0x04, 0x0F, 0x01, false) := by decide
theorem test_A4_add_zero :
    regsAfter (step (given 0x80 0x09 0x00 false [(0x00, 0x20)])) =
      some (0x80, 0x00, 0x01, false) := by decide
theorem test_S1_sub :
    regsAfter (step (given 0x08 0x01 0x00 false [(0x00, 0x36)])) =
      some (0x02, 0x06, 0x01, false) := by decide
theorem test_S3_sub_wraps :
    regsAfter (step (given 0x00 0x00 0x00 false [(0x00, 0x3F)])) =
      some (0xF1, 0x0F, 0x01, false) := by decide
theorem test_T2_nop_at_the_top :
    regsAfter (step (given 0x12 0x03 0xFF false [(0xFF, 0x0A)])) =
      some (0x12, 0x03, 0x00, false) := by decide
theorem test_T3_jmp :
    regsAfter (step (given 0x12 0x03 0x80 false [(0x80, 0x6F)])) =
      some (0x12, 0x03, 0x0F, false) := by decide
theorem test_T5_jmp_at_the_top :
    regsAfter (step (given 0x12 0x03 0xFF false [(0xFF, 0x63)])) =
      some (0x12, 0x03, 0x03, false) := by decide
theorem test_T8_hlt_at_the_top :
    regsAfter (step (given 0x12 0x03 0xFF false [(0xFF, 0xF0)])) =
      some (0x12, 0x03, 0x00, true) := by decide
theorem test_T9_hlt_while_halted :
    regsAfter (step (given 0x12 0x03 0x07 true [(0x07, 0xF0)])) =
      some (0x12, 0x03, 0x08, true) := by decide
/-- T10 to T13 and W5: one byte of each unassigned opcode. -/
theorem test_T10_unassigned :
    ([0x70, 0x8F, 0x94, 0xA5, 0xB2, 0xC8, 0xD3, 0xEF] : List Byte).all (fun insn =>
      step (given 0x12 0x03 0x20 false [(0x20, insn)]) |> regsAfter |>
        (· == some (0x12, 0x03, 0x21, false))) = true := by decide

/-! ## Ports and run control -/

/-- E4: a forced step while halted. -/
theorem test_E4_forced_step :
    regsAfter (edge Inputs.stepRequest (given 0x00 0x00 0x01 true [(0x01, 0x55)])) =
      some (0x05, 0x00, 0x02, true) := by decide
/-- E5: reset wins over the write. -/
theorem test_E5_reset_wins :
    cellAfter 0x05 (edge ⟨true, false, false, true, 0x05, 0x22⟩
      (given 0x07 0x00 0x09 true [(0x05, 0x11)])) = some 0x11 := by decide
/-- E6: the write wins over the step. -/
theorem test_E6_write_wins :
    regsAfter (edge ⟨false, true, false, true, 0x00, 0xF0⟩ State.reset) =
      some (0x00, 0x00, 0x00, false) := by decide
theorem test_E10_copy_in_wraps :
    (State.reset.copyIn .wrap 0xFE [0x01, 0x02, 0x03]).mem =
      [(0x00, 0x03), (0xFE, 0x01), (0xFF, 0x02)] := by decide
theorem test_E11_copy_in_truncates :
    (State.reset.copyIn .truncate 0xFE [0x01, 0x02, 0x03]).mem =
      [(0xFE, 0x01), (0xFF, 0x02)] := by decide
/-- R85: fuel that is spent before the HLT names no final state; W8's two steps do. -/
theorem test_W8_run :
    runWithFuel 1 (given 0x00 0x00 0x00 false [(0x01, 0xF0)]) = .notEnded ∧
    runWithFuel 2 (given 0x00 0x00 0x00 false [(0x01, 0xF0)]) =
      .ended (given 0x00 0x00 0x02 true [(0x01, 0xF0)]) := by decide
/-- The host's two questions, on one word. -/
theorem test_fetch_word_runs_first :
    regsAfter (step (State.reset.withFetchWord 8 0x57)) = some (0x07, 0x00, 0x01, false) := by
  decide

/-! ## Witnesses: the hypotheses of the statements can be met -/

theorem witness_AssemblerLinesGiveTheirBytes :
    (15 < 16 ∧ assembleLine (.jmp 15) = .ok [0x6F#8]) ∧
    (255 < 256 ∧ assembleLine (.byte 255) = .ok [0xFF#8]) ∧
    (16 ≤ 16 ∧ assembleLine (.jmp 16) = .error (.numberTooWide (.jmp 16))) ∧
    (256 ≤ 256 ∧ assembleLine (.byte 256) = .error (.numberTooWide (.byte 256))) :=
  ⟨⟨by decide, rfl⟩, ⟨by decide, rfl⟩, ⟨by decide, rfl⟩, ⟨by decide, rfl⟩⟩

theorem witness_NopOnlyAdvancesPc :
    (given 0x12 0x03 0xFF false [(0xFF, 0x0A)]).memRead 0xFF =
      BitVec.ofNat 8 (0xA#4 : Nibble).toNat := by decide

theorem witness_HltSetsHalted :
    (given 0x12 0x03 0xFF false [(0xFF, 0xF7)]).memRead 0xFF =
      BitVec.ofNat 8 (0xF0 + (0x7#4 : Nibble).toNat) := by decide

/-- The first and the last byte of the unassigned range. -/
theorem witness_UnassignedOpcodesOnlyAdvancePc :
    (given 0x12 0x03 0x20 false [(0x20, 0x70)]).memRead 0x20 =
      BitVec.ofNat 8 (0x70 + (0x0#4 : Nibble).toNat) ∧
    (given 0x12 0x03 0x20 false [(0x20, 0xEF)]).memRead 0x20 =
      BitVec.ofNat 8 (0xE0 + (0xF#4 : Nibble).toNat) := by decide

theorem witness_IgnoredOperandMakesNoDifference :
    (Instr.hlt 0x0).operandUse = .ignored ∧ (Instr.hlt 0xF).opcode = (Instr.hlt 0x0).opcode ∧
    Instr.hlt 0xF ≠ Instr.hlt 0x0 := by decide

theorem witness_StepRunsTheDecodedInstruction :
    decode [(given 0x00 0x00 0x20 false [(0x20, 0x13)]).memRead 0x20] = .ok (.lda 0x3, []) := by
  rfl

/-- One state for each clause: not a JMP (at the top of memory), and a JMP. -/
theorem witness_FetchAdvancesPcBeforeExecute :
    ((given 0x12 0x03 0xFF false [(0xFF, 0x5A)]).memRead 0xFF).toNat / 16 ≠ 0x6 ∧
    ((given 0x12 0x03 0xFF false [(0xFF, 0x63)]).memRead 0xFF).toNat / 16 = 0x6 := by decide

theorem witness_OnlyJmpWritesPcInExecute :
    exec (.ldi 0x7) State.reset = .next { State.reset with a := 0x07 } ∧
    ∀ imm, Instr.ldi 0x7 ≠ .jmp imm := ⟨rfl, by decide⟩

theorem witness_HighCellsAreReachedSequentially :
    step (given 0x00 0x00 0x0F false []) = .next (given 0x00 0x00 0x10 false []) ∧
    16 ≤ (0x10#8 : Addr).toNat := ⟨rfl, by decide⟩

/-- P7's third byte on: STA 4 at address 3. -/
theorem witness_StoredByteIsFetchedNext :
    ((given 0xF0 0x01 0x03 false [(0x03, 0x44), (0x04, 0x60)]).memRead 0x03).toNat / 16 = 0x4 ∧
    ((given 0xF0 0x01 0x03 false [(0x03, 0x44), (0x04, 0x60)]).memRead 0x03).toNat % 16 =
      ((0x03#8 : Addr).toNat + 1) % 256 := by decide

theorem witness_WhoReadsAndWritesA :
    (exec (.ldi 0x7) State.reset = .next { State.reset with a := 0x07 } ∧
      ({ State.reset with a := 0x07 } : State).a ≠ State.reset.a) ∧
    (exec (.jmp 0x7) State.reset = .next { State.reset with pc := 0x07 } ∧
      (Instr.jmp 0x7).opcode ≠ 0x2#4 ∧ (Instr.jmp 0x7).opcode ≠ 0x3#4 ∧
      (Instr.jmp 0x7).opcode ≠ 0x4#4) ∧
    ((0x05#8 : Byte) ≠ State.reset.a ∧
      (∃ t u, exec (.add 0x1) State.reset = .next t ∧
        exec (.add 0x1) { State.reset with a := 0x05 } = .next u) ∧
      (∃ t u, exec (.sub 0x1) State.reset = .next t ∧
        exec (.sub 0x1) { State.reset with a := 0x05 } = .next u) ∧
      (∃ t u, exec (.sta 0x1) State.reset = .next t ∧
        exec (.sta 0x1) { State.reset with a := 0x05 } = .next u)) :=
  ⟨⟨rfl, by decide⟩, ⟨rfl, by decide⟩, by decide, ⟨_, _, rfl, rfl⟩, ⟨_, _, rfl, rfl⟩,
    ⟨_, _, rfl, rfl⟩⟩

/-- An ADD, a SUB and neither. -/
theorem witness_NoStepReadsTheOldB :
    ((given 0x00 0x09 0x00 false [(0x00, 0x20)]).memRead 0x00).toNat / 16 = 0x2 ∧
    ((given 0x00 0x09 0x00 false [(0x00, 0x3F)]).memRead 0x00).toNat / 16 = 0x3 ∧
    ((given 0x00 0x09 0x00 false [(0x00, 0x45)]).memRead 0x00).toNat / 16 = 0x4 := by decide

theorem witness_WhoReadsAndWritesHalted :
    exec (.hlt 0x0) State.reset = .next { State.reset with halted := true } ∧
    ({ State.reset with halted := true } : State).halted ≠ State.reset.halted := ⟨rfl, by decide⟩

theorem witness_HaltedStaysSetUntilReset :
    (given 0x00 0x00 0x01 true [(0x01, 0x55)]).halted = true ∧
    exec (.ldi 0x5) (given 0x00 0x00 0x01 true [(0x01, 0x55)]) =
      .next (given 0x05 0x00 0x01 true [(0x01, 0x55)]) ∧
    step (given 0x00 0x00 0x01 true [(0x01, 0x55)]) =
      .next (given 0x05 0x00 0x02 true [(0x01, 0x55)]) := ⟨rfl, rfl, rfl⟩

theorem witness_CanonicalMemoriesThatReadAlikeAreEqual :
    Memory.wf [(0x00, 0x57#8), (0xFF, 0xF0#8)] ∧
    (∀ x, x < 256 → Memory.read [(0x00, 0x57#8), (0xFF, 0xF0#8)] x =
      Memory.read (Memory.write [(0x00, 0x57#8)] 0xFF 0xF0#8) x) :=
  ⟨by decide, fun _ _ => rfl⟩

/-- The host's write to the top cell, and an STA to the last cell an operand reaches. -/
theorem witness_OnlyStaAndHostWriteChangeACell :
    (edge (Inputs.writeRequest 0xFF 0x22) State.reset = .next (State.reset.memWrite 0xFF 0x22) ∧
      (State.reset.memWrite 0xFF 0x22).memRead 0xFF ≠ State.reset.memRead 0xFF) ∧
    (∃ t, edge Inputs.stepRequest (given 0x99 0x00 0x00 false [(0x00, 0x4F)]) = .next t ∧
      t.memRead 0x0F ≠ (given 0x99 0x00 0x00 false [(0x00, 0x4F)]).memRead 0x0F) :=
  ⟨⟨rfl, by decide⟩, ⟨_, rfl, by decide⟩⟩

/-- The first cell an operand does not reach. -/
theorem witness_StepIgnoresHighCellsItDoesNotFetch :
    (given 0x99 0x00 0x00 false [(0x00, 0x4F)]).mem.wf ∧ 16 ≤ (0x10#8 : Addr).toNat ∧
    (0x10#8 : Addr) ≠ (given 0x99 0x00 0x00 false [(0x00, 0x4F)]).pc := by decide

theorem witness_ResetEdgeRestartsAtZero : Inputs.resetRequest.rst = true := rfl

/-- An STA from a state with the invariant, B at the end of its range. -/
theorem witness_StepKeepsTheInvariant :
    (given 0x99 0x0F 0x00 false [(0x00, 0x4F)]).Inv ∧
    ∃ t, step (given 0x99 0x0F 0x00 false [(0x00, 0x4F)]) = .next t :=
  ⟨⟨by decide, by decide⟩, _, rfl⟩

theorem witness_ReachableStatesMeetTheInvariant :
    (given 0x99 0x0F 0x00 false [(0x00, 0x4F)]).Inv ∧
    (∃ t, edge (Inputs.writeRequest 0xFF 0x22) (given 0x99 0x0F 0x00 false [(0x00, 0x4F)]) =
      .next t) ∧
    Reachable (State.reset.memWrite 0xFF 0x22) :=
  ⟨⟨by decide, by decide⟩, ⟨_, rfl⟩, .edge (Inputs.writeRequest 0xFF 0x22) _ _ .powerOn rfl⟩

/-- A run that ends after one step, and one that no fuel of three ends. -/
theorem witness_RunEndsExactlyAtItsHalt :
    (given 0x00 0x00 0xFF false [(0xFF, 0xF0)]).halted = false ∧
    EndsAfter (given 0x00 0x00 0xFF false [(0xFF, 0xF0)]) 1
      (given 0x00 0x00 0x00 true [(0xFF, 0xF0)]) ∧
    runWithFuel 3 State.reset = .notEnded :=
  ⟨rfl, ⟨rfl, Nat.le_refl 1, rfl, rfl, fun _ _ h1 h2 => absurd h2 (Nat.not_lt.2 h1)⟩, by decide⟩

/-- A Running state whose cells are all no-ops, the two ends of the unassigned range and the last NOP
among them. -/
theorem witness_UnloadedCoreRunsNopsForever :
    (given 0x12 0x03 0xFF false [(0x00, 0x70), (0x80, 0x0F), (0xFF, 0xEF)]).halted = false ∧
    ∀ x : Addr,
      ((given 0x12 0x03 0xFF false [(0x00, 0x70), (0x80, 0x0F), (0xFF, 0xEF)]).memRead x).toNat / 16 =
          0x0 ∨
        (0x7 ≤ ((given 0x12 0x03 0xFF false
            [(0x00, 0x70), (0x80, 0x0F), (0xFF, 0xEF)]).memRead x).toNat / 16 ∧
          ((given 0x12 0x03 0xFF false
            [(0x00, 0x70), (0x80, 0x0F), (0xFF, 0xEF)]).memRead x).toNat / 16 ≤ 0xE) := by decide

theorem witness_RunStartedHaltedTakesNoStep :
    (given 0x00 0x00 0x01 true [(0x01, 0x55)]).halted = true := rfl

/-- A run that ends at the second of three edges. -/
theorem witness_HeldRunPortIsTheRun :
    runWithFuel 3 (given 0x00 0x00 0x00 false [(0x01, 0xF0)]) =
      .ended (given 0x00 0x00 0x02 true [(0x01, 0xF0)]) := by decide

/-- Every request at once; then each branch of the priority in turn. -/
theorem witness_EdgePriority :
    (⟨true, true, true, true, 0x05, 0x22⟩ : Inputs).rst = true ∧
    (Inputs.writeRequest 0x05 0x22).rst = false ∧ (Inputs.writeRequest 0x05 0x22).memWe = true ∧
    Inputs.stepRequest.memWe = false ∧ Inputs.stepRequest.step = true ∧
    Inputs.runRequest.step = false ∧ Inputs.runRequest.run = true ∧
    State.reset.halted = false ∧ State.reset.setHalted.halted = true ∧
    Inputs.idle.rst = false ∧ Inputs.idle.run = false := by decide

theorem witness_HostWriteReadsBackAtThePorts :
    (Inputs.writeRequest 0xFF 0x22).rst = false ∧ (Inputs.writeRequest 0xFF 0x22).memWe = true ∧
    (0x00#8 : Addr) ≠ (Inputs.writeRequest 0xFF 0x22).memAddr := by decide

/-- From a Halted state: a forced step; a write beside a step request; run held. -/
theorem witness_HaltedCoreWaitsForTheHost :
    State.reset.setHalted.halted = true ∧
    (∃ t, edges [Inputs.stepRequest] State.reset.setHalted = .next t) ∧
    (∀ inp ∈ [Inputs.stepRequest], inp.rst = false) ∧
    (∃ t, edges [⟨false, true, false, true, 0x05, 0x22⟩] State.reset.setHalted = .next t) ∧
    (∀ inp ∈ [(⟨false, true, false, true, 0x05, 0x22⟩ : Inputs)],
      inp.rst = false ∧ (inp.step = false ∨ inp.memWe = true)) ∧
    (∃ t, edges [Inputs.runRequest] State.reset.setHalted = .next t) ∧
    (∀ inp ∈ [Inputs.runRequest], inp.rst = false ∧ inp.step = false ∧ inp.memWe = false) :=
  ⟨rfl, ⟨_, rfl⟩, by decide, ⟨_, rfl⟩, by decide, ⟨_, rfl⟩, by decide⟩

/-- Three bytes from 0xFE: the third goes to cell 0, and cell 1 is not written. -/
theorem witness_CopyInWrapLaterByteWins :
    (([0x01, 0x02, 0x03] : List Byte)[2]? = some 0x03 ∧
      ((0xFE#8 : Addr).toNat + 2) % 256 = (0x00#8 : Addr).toNat ∧
      ∀ j, j < 3 → 2 < j → ((0xFE#8 : Addr).toNat + j) % 256 ≠ (0x00#8 : Addr).toNat) ∧
    (∀ i, i < ([0x01, 0x02, 0x03] : List Byte).length →
      ((0xFE#8 : Addr).toNat + i) % 256 ≠ (0x01#8 : Addr).toNat) := by decide

/-- A run that ends exactly at the top of memory. -/
theorem witness_CopyInIsASequenceOfHostWrites :
    (0xFE#8 : Addr).toNat + ([0x01, 0x02] : List Byte).length ≤ 256 := by decide

end Sys2Proof.Tests
end

/-! PROOFS. Who reads and writes `PC`, A and `halted` (spec/10_state.md R21, R24, R26). -/

namespace Sys2Proof.Machine

/-- Only JMP writes `PC` in the execute phase (R24). -/
theorem exec_pc_of_not_jmp {i : Instr} {s t : State} (h : exec i s = .next t)
    (hi : ∀ imm, i ≠ .jmp imm) : t.pc = s.pc := by
  rcases exec_cases h with ⟨-, -, rfl⟩ | ⟨_, -, rfl⟩ | ⟨_, -, rfl⟩ | ⟨_, -, rfl⟩ | ⟨_, -, rfl⟩ |
    ⟨_, -, rfl⟩ | ⟨imm, hjmp, -⟩ | ⟨_, -, rfl⟩
  on_goal 7 => exact absurd hjmp (hi imm)
  all_goals rfl

/-- The flag after an execute phase: what it was, or set by HLT (R25). -/
theorem exec_halted {i : Instr} {s t : State} (h : exec i s = .next t) :
    t.halted = (s.halted || decide (i.opcode = 0xF#4)) := by
  rcases exec_cases h with ⟨-, hne, rfl⟩ | ⟨_, rfl, rfl⟩ | ⟨_, rfl, rfl⟩ | ⟨_, rfl, rfl⟩ |
    ⟨_, rfl, rfl⟩ | ⟨_, rfl, rfl⟩ | ⟨_, rfl, rfl⟩ | ⟨_, rfl, rfl⟩
  · simp [hne]
  all_goals simp [Instr.opcode]

/-- No execute phase clears the flag (R26). -/
theorem exec_keeps_halted {i : Instr} {s t : State} (hs : s.halted = true)
    (h : exec i s = .next t) : t.halted = true := by
  rw [exec_halted h, hs, Bool.true_or]

/-- The writers of A: LDA, ADD, SUB and LDI (R21). -/
theorem opcode_of_exec_changes_a {i : Instr} {s t : State} (h : exec i s = .next t)
    (ha : t.a ≠ s.a) :
    i.opcode = 0x1#4 ∨ i.opcode = 0x2#4 ∨ i.opcode = 0x3#4 ∨ i.opcode = 0x5#4 := by
  rcases exec_cases h with ⟨-, -, rfl⟩ | ⟨_, rfl, -⟩ | ⟨_, rfl, -⟩ | ⟨_, rfl, -⟩ | ⟨_, -, rfl⟩ |
    ⟨_, rfl, -⟩ | ⟨_, -, rfl⟩ | ⟨_, -, rfl⟩
  · exact absurd rfl ha
  · exact .inl rfl
  · exact .inr (.inl rfl)
  · exact .inr (.inr (.inl rfl))
  · exact absurd rfl ha
  · exact .inr (.inr (.inr rfl))
  · exact absurd rfl ha
  · exact absurd rfl ha

/-- An instruction other than ADD, SUB and STA does not read A: from another A it does the same, and
LDA and LDI alone replace that A (R21). -/
theorem exec_with_a {i : Instr} {s t : State} (v : Byte) (h : exec i s = .next t)
    (hadd : i.opcode ≠ 0x2#4) (hsub : i.opcode ≠ 0x3#4) (hsta : i.opcode ≠ 0x4#4) :
    exec i { s with a := v } =
      .next { t with a := if i.opcode = 0x1#4 ∨ i.opcode = 0x5#4 then t.a else v } := by
  cases i with
  | add imm => exact absurd rfl hadd
  | sub imm => exact absurd rfl hsub
  | sta imm => exact absurd rfl hsta
  | lda imm | ldi imm | nop imm | jmp imm | hlt imm | undef7 imm | undef8 imm | undef9 imm
  | undefA imm | undefB imm | undefC imm | undefD imm | undefE imm => cases h; rfl

/-- ADD reads A: from different values of A it leaves different sums (R21). -/
theorem exec_add_reads_a {imm : Nibble} {s t u : State} {v : Byte} (hv : v ≠ s.a)
    (ht : exec (.add imm) s = .next t) (hu : exec (.add imm) { s with a := v } = .next u) :
    u.a ≠ t.a := by
  cases ht; cases hu
  exact fun heq : v + literal imm = s.a + literal imm => hv ((BitVec.add_left_inj _).1 heq)

/-- SUB reads A: from different values of A it leaves different differences (R21). -/
theorem exec_sub_reads_a {imm : Nibble} {s t u : State} {v : Byte} (hv : v ≠ s.a)
    (ht : exec (.sub imm) s = .next t) (hu : exec (.sub imm) { s with a := v } = .next u) :
    u.a ≠ t.a := by
  cases ht; cases hu
  exact fun heq : v - literal imm = s.a - literal imm => hv ((BitVec.sub_left_inj _).1 heq)

/-- STA reads A: it stores different values of A as different bytes (R21). -/
theorem exec_sta_reads_a {imm : Nibble} {s t u : State} {v : Byte} (hv : v ≠ s.a)
    (ht : exec (.sta imm) s = .next t) (hu : exec (.sta imm) { s with a := v } = .next u) :
    u.memRead (effectiveAddr imm) ≠ t.memRead (effectiveAddr imm) := by
  rw [exec_sta] at ht hu
  cases ht; cases hu
  simpa only [State.memRead_memWrite, if_true] using hv

/-- Settles O21: a step executes at the advanced `PC`, which JMP alone overwrites. -/
theorem onlyJmpWritesPcInExecute : Obligations.OnlyJmpWritesPcInExecute :=
  ⟨step_eq, fun imm s => ⟨_, exec_jmp imm s, jumpTarget_toNat imm⟩,
    fun _ _ _ h hi => exec_pc_of_not_jmp h hi⟩

/-- Settles O24: the writers of A, the instructions that do not read it, and those that do. -/
theorem whoReadsAndWritesA : Obligations.WhoReadsAndWritesA :=
  ⟨fun _ _ _ h ha => opcode_of_exec_changes_a h ha,
    fun _ _ _ v h hadd hsub hsta => exec_with_a v h hadd hsub hsta,
    fun _ _ _ _ _ hv => ⟨exec_add_reads_a hv, exec_sub_reads_a hv, exec_sta_reads_a hv⟩⟩

/-- Settles O27: an execute phase keeps a set flag, hence so does a step; reset clears it. -/
theorem haltedStaysSetUntilReset : Obligations.HaltedStaysSetUntilReset :=
  ⟨fun _ _ _ hs h => exec_keeps_halted hs h,
    fun s _ hs h => exec_keeps_halted (s := { s with pc := s.pc + 1#8 }) hs (step_eq s ▸ h),
    State.resetCore_halted⟩

end Sys2Proof.Machine

/-! PROOFS. The two fields of an instruction byte, and the one byte a decode consumes
(spec/30_encoding.md R60, R66). -/

namespace Sys2Proof

/-- The opcode field is the byte's quotient by 16 (R60). -/
theorem opField_toNat (insn : Byte) : (opField insn).toNat = insn.toNat / 16 := by
  have hlt : insn.toNat / 16 < 16 := by have := insn.isLt; omega
  rw [opField, BitVec.extractLsb'_toNat, Nat.shiftRight_eq_div_pow]
  exact Nat.mod_eq_of_lt hlt

/-- The operand field is the byte's remainder by 16 (R60). -/
theorem immField_toNat (insn : Byte) : (immField insn).toNat = insn.toNat % 16 := by
  rw [immField, BitVec.extractLsb'_toNat, Nat.shiftRight_zero]

/-- The instruction that R62's table gives for an opcode has that opcode: one case per opcode. -/
@[simp] theorem opcode_instrOf (op imm : Nibble) : (instrOf op imm).opcode = op := by
  obtain ⟨n, hn⟩ := op
  interval_cases n <;> rfl

/-- The instruction that R62's table gives for an operand has that operand: one case per opcode. -/
@[simp] theorem operand_instrOf (op imm : Nibble) : (instrOf op imm).operand = imm := by
  obtain ⟨n, hn⟩ := op
  interval_cases n <;> rfl

/-- Every instruction is one byte (R66). -/
@[simp] theorem encode_length (i : Instr) : (encode i).length = 1 := rfl

/-- Decoding takes the first byte and leaves the others (R66). -/
theorem decode_cons (insn : Byte) (rest : List Byte) :
    decode (insn :: rest) = .ok (decodeByte insn, rest) := rfl

/-- Settles O1: the fields are quotient and remainder by 16, and decoding keeps both. -/
theorem fieldsAreTheTwoNibbles : Obligations.FieldsAreTheTwoNibbles := fun insn =>
  ⟨opField_toNat insn, immField_toNat insn, opcode_instrOf _ _, operand_instrOf _ _,
    encode_length _⟩

/-- Settles O2: the instruction is that of the first byte, whatever stands behind it. -/
theorem decoderConsumesOneByte : Obligations.DecoderConsumesOneByte := fun insn rest =>
  ⟨decodeByte insn, decode_cons insn rest, decode_cons insn [], encode_length _⟩

end Sys2Proof

/-! PROOFS. A step as the spec's case table over numbers (spec/40_execution_cycle.md R80, R81). -/

namespace Sys2Proof

/-- An instruction is what its opcode and its operand select. -/
theorem instrOf_opcode_operand (i : Instr) : instrOf i.opcode i.operand = i := by
  cases i <;> rfl

/-- An instruction that ignores its operand is none of LDA to JMP (R61, R62). -/
theorem opcode_toNat_of_ignored {i : Instr} (h : i.operandUse = .ignored) :
    i.opcode.toNat = 0 ∨ 7 ≤ i.opcode.toNat := by
  cases i with
  | lda imm | add imm | sub imm | sta imm | ldi imm | jmp imm => cases h
  | nop imm => exact .inl rfl
  | undef7 imm | undef8 imm | undef9 imm | undefA imm | undefB imm | undefC imm | undefD imm
  | undefE imm | hlt imm => exact .inr (Nat.le_of_ble_eq_true rfl)

end Sys2Proof

namespace Sys2Proof.Machine

/-- The opcode of the fetched instruction is the quotient of the byte at `PC` by 16 (R60). -/
theorem opcode_fetchInstr_toNat (s : State) :
    s.fetchInstr.opcode.toNat = (s.memRead s.pc).toNat / 16 := by
  rw [State.fetchInstr, decodeByte, opcode_instrOf, opField_toNat, State.fetchByte]

/-- The operand of the fetched instruction is the remainder of the byte at `PC` by 16 (R60). -/
theorem operand_fetchInstr_toNat (s : State) :
    s.fetchInstr.operand.toNat = (s.memRead s.pc).toNat % 16 := by
  rw [State.fetchInstr, decodeByte, operand_instrOf, immField_toNat, State.fetchByte]

/-- Every execute phase completes (R80). -/
theorem exec_completes (i : Instr) (s : State) : ∃ t, exec i s = .next t := by
  cases i <;> exact ⟨_, rfl⟩

/-- Every step completes (R80). -/
theorem step_completes (s : State) : ∃ t, step s = .next t := exec_completes _ _

/-- `PC +_8 1` as a number (R81). -/
theorem pc_succ_toNat (pc : Addr) : (pc + 1#8).toNat = (pc.toNat + 1) % 256 := by
  rw [BitVec.toNat_add]; rfl

/-- The number in A after ADD (R110). -/
theorem add_literal_toNat (a : Byte) (imm : Nibble) :
    (a + literal imm).toNat = (a.toNat + imm.toNat) % 256 := by
  rw [BitVec.toNat_add, literal_toNat]

/-- The number in A after SUB (R111). -/
theorem sub_literal_toNat (a : Byte) (imm : Nibble) :
    (a - literal imm).toNat = (a.toNat + 256 - imm.toNat) % 256 := by
  have := imm.isLt
  rw [BitVec.toNat_sub, literal_toNat]
  omega

/-- A after an execute phase, as the case table gives it (R80). -/
theorem exec_a_toNat {i : Instr} {s t : State} (h : exec i s = .next t) :
    t.a.toNat =
      (if i.opcode.toNat = 0x1 then (s.mem.read i.operand.toNat).toNat
       else if i.opcode.toNat = 0x2 then (s.a.toNat + i.operand.toNat) % 256
       else if i.opcode.toNat = 0x3 then (s.a.toNat + 256 - i.operand.toNat) % 256
       else if i.opcode.toNat = 0x5 then i.operand.toNat
       else s.a.toNat) := by
  rcases exec_cases h with ⟨hi, -, rfl⟩ | ⟨imm, rfl, rfl⟩ | ⟨imm, rfl, rfl⟩ | ⟨imm, rfl, rfl⟩ |
    ⟨imm, rfl, rfl⟩ | ⟨imm, rfl, rfl⟩ | ⟨imm, rfl, rfl⟩ | ⟨imm, rfl, rfl⟩
  · have := opcode_toNat_of_ignored hi
    rw [if_neg, if_neg, if_neg, if_neg] <;> omega
  · exact congrArg (fun x => (s.mem.read x).toNat) (effectiveAddr_toNat imm)
  · exact add_literal_toNat s.a imm
  · exact sub_literal_toNat s.a imm
  · rfl
  · exact literal_toNat imm
  · rfl
  · rfl

/-- B after an execute phase, as the case table gives it (R80). -/
theorem exec_b_toNat {i : Instr} {s t : State} (h : exec i s = .next t) :
    t.b.toNat =
      (if i.opcode.toNat = 0x2 ∨ i.opcode.toNat = 0x3 then i.operand.toNat else s.b.toNat) := by
  rcases exec_cases h with ⟨hi, -, rfl⟩ | ⟨imm, rfl, rfl⟩ | ⟨imm, rfl, rfl⟩ | ⟨imm, rfl, rfl⟩ |
    ⟨imm, rfl, rfl⟩ | ⟨imm, rfl, rfl⟩ | ⟨imm, rfl, rfl⟩ | ⟨imm, rfl, rfl⟩
  · have := opcode_toNat_of_ignored hi
    rw [if_neg (by omega)]
  · rfl
  · exact literal_toNat imm
  · exact literal_toNat imm
  all_goals rfl

/-- `PC` after an execute phase: JMP's target, or what it was (R80, R24). -/
theorem exec_pc {i : Instr} {s t : State} (h : exec i s = .next t) :
    t.pc = if i.opcode.toNat = 0x6 then jumpTarget i.operand else s.pc := by
  split
  case isTrue hop =>
    rw [← instrOf_opcode_operand i, BitVec.eq_of_toNat_eq (y := 0x6#4) hop] at h
    cases h; rfl
  case isFalse hop => exact exec_pc_of_not_jmp h fun _ hi => hop (hi ▸ rfl)

/-- A cell after an execute phase, as the case table gives it (R80). -/
theorem exec_read_toNat {i : Instr} {s t : State} (h : exec i s = .next t) (x : Nat) :
    (t.mem.read x).toNat =
      (if i.opcode.toNat = 0x4 ∧ x = i.operand.toNat then s.a.toNat
       else (s.mem.read x).toNat) := by
  rcases exec_cases h with ⟨hi, -, rfl⟩ | ⟨imm, rfl, rfl⟩ | ⟨imm, rfl, rfl⟩ | ⟨imm, rfl, rfl⟩ |
    ⟨imm, rfl, rfl⟩ | ⟨imm, rfl, rfl⟩ | ⟨imm, rfl, rfl⟩ | ⟨imm, rfl, rfl⟩
  on_goal 1 =>
    have := opcode_toNat_of_ignored hi
    rw [if_neg (by omega)]
  on_goal 4 =>
    rw [State.memWrite_mem, Memory.read_write, effectiveAddr_toNat, apply_ite BitVec.toNat]
    simp [Instr.opcode, Instr.operand]
  all_goals simp [Instr.opcode]

/-- Settles O19: one lemma for each register, the flag and the cells, at the fetched instruction. -/
theorem stepFollowsTheCaseTable : Obligations.StepFollowsTheCaseTable := by
  intro s
  obtain ⟨t, ht⟩ := step_completes s
  have h := step_eq s ▸ ht
  have hop : s.fetchInstr.opcode.toNat = (s.mem.read s.pc.toNat).toNat / 16 :=
    opcode_fetchInstr_toNat s
  have himm : s.fetchInstr.operand.toNat = (s.mem.read s.pc.toNat).toNat % 16 :=
    operand_fetchInstr_toNat s
  refine ⟨t, ht, ?_⟩
  simp only [← hop, ← himm]
  refine ⟨(exec_a_toNat h :), (exec_b_toNat h :), ?_, ?_, fun x _ => (exec_read_toNat h x :)⟩
  · simp only [exec_pc h, apply_ite BitVec.toNat, jumpTarget_toNat, pc_succ_toNat]
  · simp only [exec_halted h, ← BitVec.toNat_inj]
    rfl

/-- Settles O20: the execute phase starts at the advanced `PC`, which JMP alone overwrites. -/
theorem fetchAdvancesPcBeforeExecute : Obligations.FetchAdvancesPcBeforeExecute := by
  intro s
  obtain ⟨t, ht⟩ := step_completes s
  have hpc := exec_pc (step_eq s ▸ ht)
  rw [opcode_fetchInstr_toNat] at hpc
  refine ⟨step_eq s, pc_succ_toNat s.pc, t, ht, fun hne => hpc.trans (if_neg hne), fun heq => ?_⟩
  rw [hpc, if_pos heq, jumpTarget_toNat, operand_fetchInstr_toNat]

end Sys2Proof.Machine

/-! PROOFS. The run under fuel and the end of a run (spec/40_execution_cycle.md R84, R85). -/

namespace Sys2Proof.Machine

/-- A step that sets the flag is an HLT: it leaves `PC` advanced and nothing else changed (R85). -/
theorem step_to_halted {s t : State} (hs : s.halted = false) (h : step s = .next t)
    (ht : t.halted = true) :
    (s.memRead s.pc).toNat / 16 = 0xF ∧ t = { s with pc := s.pc + 1#8, halted := true } := by
  have hop : s.fetchInstr.opcode = 0xF#4 := by
    have hflag := exec_halted (step_eq s ▸ h)
    simpa only [hs, ht, Bool.false_or, decide_eq_true_eq, eq_comm (a := true)] using hflag
  constructor
  · rw [← opcode_fetchInstr_toNat, hop]; rfl
  · rw [step_eq, ← instrOf_opcode_operand s.fetchInstr, hop] at h
    cases h; rfl

/-- One step, then the others. -/
theorem stepN_succ {s t : State} (h : step s = .next t) (k : Nat) :
    stepN (k + 1) s = stepN k t := by
  rw [stepN, h]

/-- The last of several steps. -/
theorem stepN_succ_last {k : Nat} {s t : State} (h : stepN (k + 1) s = .next t) :
    ∃ u, stepN k s = .next u ∧ step u = .next t := by
  induction k generalizing s with
  | zero =>
    obtain ⟨u, hu⟩ := step_completes s
    exact ⟨s, rfl, by rw [hu]; rwa [stepN_succ hu] at h⟩
  | succ k ih =>
    obtain ⟨u, hu⟩ := step_completes s
    rw [stepN_succ hu] at h ⊢
    exact ih h

/-- A run from a Halted state takes no step (R84). -/
theorem runWithFuel_of_halted {s : State} (hs : s.halted = true) (n : Nat) :
    runWithFuel n s = .ended s := by
  cases n <;> exact if_pos hs

/-- With no fuel a run from a Running state has not ended. -/
theorem runWithFuel_zero {s : State} (hs : s.halted = false) : runWithFuel 0 s = .notEnded := by
  rw [runWithFuel, hs]; rfl

/-- A run from a Running state takes one step and goes on (R84). -/
theorem runWithFuel_succ {s t : State} (hs : s.halted = false) (h : step s = .next t) (n : Nat) :
    runWithFuel (n + 1) s = runWithFuel n t := by
  rw [runWithFuel, hs, h]; rfl

/-- The executor names a final state or says "not ended": nothing faults (R80, R85). -/
theorem runWithFuel_ne_notEnded_iff (n : Nat) (s : State) :
    runWithFuel n s ≠ .notEnded ↔ ∃ t, runWithFuel n s = .ended t := by
  refine ⟨fun h => ?_, fun ⟨t, ht⟩ => ht ▸ nofun⟩
  induction n generalizing s with
  | zero =>
    cases hs : s.halted with
    | false => exact absurd (runWithFuel_zero hs) h
    | true => exact ⟨s, runWithFuel_of_halted hs 0⟩
  | succ n ih =>
    cases hs : s.halted with
    | false =>
      obtain ⟨t, ht⟩ := step_completes s
      rw [runWithFuel_succ hs ht] at h ⊢
      exact ih t h
    | true => exact ⟨s, runWithFuel_of_halted hs _⟩

/-- Where the first step halts, the run ends there. -/
theorem endsAfter_iff_of_step_halted {s t u : State} {k : Nat} (hs : s.halted = false)
    (h : step s = .next t) (ht : t.halted = true) : EndsAfter s k u ↔ k = 1 ∧ u = t := by
  have hone : stepN 1 s = .next t := stepN_succ h 0
  constructor
  · rintro ⟨-, hk, hend, -, hleast⟩
    have hk1 : k = 1 := by
      by_contra hne
      exact absurd ht (by simp [hleast 1 t le_rfl (by omega) hone])
    subst hk1
    exact ⟨rfl, by cases hone.symm.trans hend; rfl⟩
  · rintro ⟨rfl, rfl⟩
    exact ⟨hs, le_rfl, hone, ht, fun j _ h1 hj => absurd hj (Nat.not_lt.2 h1)⟩

/-- Where the first step leaves the core Running, the run ends where the run from there ends, one
step later. -/
theorem endsAfter_succ_iff {s t u : State} {k : Nat} (hs : s.halted = false)
    (h : step s = .next t) (ht : t.halted = false) : EndsAfter s (k + 1) u ↔ EndsAfter t k u := by
  constructor
  · rintro ⟨-, -, hend, hu, hleast⟩
    rw [stepN_succ h] at hend
    refine ⟨ht, ?_, hend, hu, fun j v h1 hj hv =>
      hleast (j + 1) v (by omega) (by omega) (by rwa [stepN_succ h])⟩
    cases k with
    | zero => cases hend; exact absurd hu (by simp [ht])
    | succ k => omega
  · rintro ⟨-, hk, hend, hu, hleast⟩
    refine ⟨hs, by omega, by rwa [stepN_succ h], hu, fun j v h1 hj hv => ?_⟩
    obtain ⟨j, rfl⟩ := Nat.exists_eq_add_of_le' h1
    rw [stepN_succ h] at hv
    cases j with
    | zero => cases hv; exact ht
    | succ j => exact hleast (j + 1) v (by omega) (by omega) hv

/-- No run ends after zero steps. -/
theorem not_endsAfter_zero (s t : State) : ¬ EndsAfter s 0 t := fun ⟨_, h, _⟩ =>
  absurd h (Nat.not_succ_le_zero 0)

/-- The executor names a final state exactly when the run ends there within the fuel (R85). -/
theorem runWithFuel_eq_ended_iff {s : State} (hs : s.halted = false) (n : Nat) (t : State) :
    runWithFuel n s = .ended t ↔ ∃ k, k ≤ n ∧ EndsAfter s k t := by
  induction n generalizing s with
  | zero =>
    rw [runWithFuel_zero hs]
    refine ⟨nofun, fun ⟨k, hk, hend⟩ => ?_⟩
    exact absurd (Nat.le_zero.1 hk ▸ hend) (not_endsAfter_zero s t)
  | succ n ih =>
    obtain ⟨u, hu⟩ := step_completes s
    rw [runWithFuel_succ hs hu]
    cases huh : u.halted with
    | true =>
      simp only [runWithFuel_of_halted huh, endsAfter_iff_of_step_halted hs hu huh,
        RunOutcome.ended.injEq]
      exact ⟨fun h => ⟨1, by omega, rfl, h.symm⟩, fun ⟨_, _, _, h⟩ => h.symm⟩
    | false =>
      rw [ih huh]
      constructor
      · rintro ⟨k, hk, hend⟩
        exact ⟨k + 1, by omega, (endsAfter_succ_iff hs hu huh).2 hend⟩
      · rintro ⟨k, hk, hend⟩
        cases k with
        | zero => exact absurd hend (not_endsAfter_zero s t)
        | succ k => exact ⟨k, by omega, (endsAfter_succ_iff hs hu huh).1 hend⟩

/-- The executor says "not ended" exactly when the run does not end within the fuel (R85). -/
theorem runWithFuel_eq_notEnded_iff {s : State} (hs : s.halted = false) (n : Nat) :
    runWithFuel n s = .notEnded ↔ ∀ k t, k ≤ n → ¬ EndsAfter s k t := by
  rw [← not_iff_not, ← Ne, runWithFuel_ne_notEnded_iff]
  simp only [runWithFuel_eq_ended_iff hs]
  push Not
  exact exists_comm

/-- A run hangs exactly when no fuel ends it (R85). -/
theorem hangs_iff {s : State} (hs : s.halted = false) :
    Hangs s ↔ ∀ n, runWithFuel n s = .notEnded := by
  simp only [runWithFuel_eq_notEnded_iff hs]
  exact ⟨fun ⟨_, h⟩ _ k t _ => h k t, fun h => ⟨hs, fun k t => h k k t le_rfl⟩⟩

/-- The last step of a run starts Running and ends it. -/
theorem EndsAfter.last_step {s t : State} {k : Nat} (h : EndsAfter s k t) :
    ∃ u, stepN (k - 1) s = .next u ∧ u.halted = false ∧ step u = .next t := by
  obtain ⟨hs, hk, hend, -, hleast⟩ := h
  obtain ⟨j, rfl⟩ := Nat.exists_eq_add_of_le' hk
  obtain ⟨u, hu, hstep⟩ := stepN_succ_last hend
  refine ⟨u, hu, ?_, hstep⟩
  cases j with
  | zero => cases hu; exact hs
  | succ j => exact hleast (j + 1) u (by omega) (by omega) hu

/-- Settles O38: the executor against the end of a run, by induction on the fuel; and the last step
of a run, which sets the flag and so is an HLT. -/
theorem runEndsExactlyAtItsHalt : Obligations.RunEndsExactlyAtItsHalt := by
  intro s hs
  refine ⟨runWithFuel_eq_ended_iff hs, runWithFuel_eq_notEnded_iff hs, hangs_iff hs,
    fun k t hend => ?_⟩
  obtain ⟨u, hu, hrun, hstep⟩ := hend.last_step
  obtain ⟨-, -, -, ht, -⟩ := hend
  exact ⟨u, hu, hrun, step_to_halted hrun hstep ht⟩

end Sys2Proof.Machine

/-! PROOFS. LDA, STA and LDI, with the bytes of an instruction as numbers (spec/41_load_store.md R100
to R103, spec/30_encoding.md R60). -/

namespace Sys2Proof

/-- An instruction's byte as a number: sixteen times the opcode, plus the operand (R60). -/
theorem encodeByte_eq_ofNat (i : Instr) :
    encodeByte i = BitVec.ofNat 8 (16 * i.opcode.toNat + i.operand.toNat) := by
  have hop := i.opcode.isLt
  have himm := i.operand.isLt
  refine BitVec.eq_of_toNat_eq ?_
  rw [BitVec.toNat_ofNat, Nat.mod_eq_of_lt (by omega), encodeByte, BitVec.toNat_append,
    ← Nat.shiftLeft_add_eq_or_of_lt himm, Nat.shiftLeft_eq, Nat.mul_comm]

/-- The opcode field of an instruction's byte is its opcode (R60). -/
@[simp] theorem opField_encodeByte (i : Instr) : opField (encodeByte i) = i.opcode :=
  BitVec.extractLsb'_append_eq_left

/-- The operand field of an instruction's byte is its operand (R60). -/
@[simp] theorem immField_encodeByte (i : Instr) : immField (encodeByte i) = i.operand :=
  BitVec.extractLsb'_append_eq_right

/-- Decoding an instruction's byte gives the instruction back. -/
@[simp] theorem decodeByte_encodeByte (i : Instr) : decodeByte (encodeByte i) = i := by
  rw [decodeByte, opField_encodeByte, immField_encodeByte, instrOf_opcode_operand]

/-- The encoding of an instruction, its byte as a number. -/
theorem encode_eq_ofNat (i : Instr) :
    encode i = [BitVec.ofNat 8 (16 * i.opcode.toNat + i.operand.toNat)] := by
  rw [encode, encodeByte_eq_ofNat]

/-- The number of an instruction's byte decodes to the instruction. -/
theorem decodeByte_ofNat (i : Instr) :
    decodeByte (BitVec.ofNat 8 (16 * i.opcode.toNat + i.operand.toNat)) = i := by
  rw [← encodeByte_eq_ofNat, decodeByte_encodeByte]

end Sys2Proof

namespace Sys2Proof.Machine

/-- The effective address is the operand's number (R103). -/
theorem effectiveAddr_eq_ofNat (imm : Nibble) : effectiveAddr imm = BitVec.ofNat 8 imm.toNat :=
  (BitVec.ofNat_toNat 8 imm).symm

/-- The cell just written holds the byte. -/
theorem State.memRead_memWrite_self (s : State) (x : Addr) (v : Byte) :
    (s.memWrite x v).memRead x = v := by
  rw [State.memRead_memWrite, if_pos rfl]

/-- A write leaves every other cell as it was. -/
theorem State.sameMemoryBut_memWrite (s : State) (x : Addr) (v : Byte) :
    SameMemoryBut x s (s.memWrite x v) := by
  intro y hy
  rw [State.memRead_memWrite, if_neg hy]

/-- Settles O7: LDA replaces A by the cell at its effective address and no other field. -/
theorem ldaLoadsTheAddressedCell : Obligations.LdaLoadsTheAddressedCell := fun imm s =>
  ⟨encode_eq_ofNat (.lda imm), decodeByte_ofNat (.lda imm), _, exec_lda imm s,
    congrArg s.memRead (effectiveAddr_eq_ofNat imm), rfl, rfl, rfl, fun _ => rfl⟩

/-- Settles O8: STA is one memory write of A, which changes the cell at its address only. -/
theorem staStoresToTheAddressedCell : Obligations.StaStoresToTheAddressedCell := fun imm s =>
  ⟨encode_eq_ofNat (.sta imm), decodeByte_ofNat (.sta imm), effectiveAddr_toNat imm,
    _, exec_sta imm s, State.memRead_memWrite_self s _ _, State.sameMemoryBut_memWrite s _ _,
    State.memWrite_a .., State.memWrite_b .., State.memWrite_pc .., State.memWrite_halted ..⟩

/-- Settles O9: LDI replaces A by its operand and no other field. -/
theorem ldiLoadsTheLiteral : Obligations.LdiLoadsTheLiteral := fun imm s =>
  ⟨encode_eq_ofNat (.ldi imm), decodeByte_ofNat (.ldi imm), _, exec_ldi imm s, literal_toNat imm,
    rfl, rfl, rfl, fun _ => rfl⟩

end Sys2Proof.Machine

/-! PROOFS. ADD and SUB (spec/42_arithmetic.md R110 to R112). -/

namespace Sys2Proof.Machine

/-- Settles O10: ADD puts its operand in B and the sum in A, and replaces no other field. -/
theorem addAddsTheLiteralModulo256 : Obligations.AddAddsTheLiteralModulo256 := fun imm s =>
  ⟨encode_eq_ofNat (.add imm), decodeByte_ofNat (.add imm), _, exec_add imm s, literal_toNat imm,
    add_literal_toNat s.a imm, rfl, rfl, fun _ => rfl⟩

/-- Settles O11: SUB puts its operand in B and the difference in A, and replaces no other field. -/
theorem subSubtractsTheLiteralModulo256 : Obligations.SubSubtractsTheLiteralModulo256 :=
  fun imm s =>
    ⟨encode_eq_ofNat (.sub imm), decodeByte_ofNat (.sub imm), _, exec_sub imm s, literal_toNat imm,
      sub_literal_toNat s.a imm, rfl, rfl, fun _ => rfl⟩

end Sys2Proof.Machine

/-! PROOFS. NOP, JMP, HLT and the unassigned opcodes (spec/43_control.md R120 to R123). -/

namespace Sys2Proof.Machine

/-- A step where `PC` stands at an instruction's byte executes that instruction (R80). -/
theorem step_of_memRead_pc {s : State} (i : Instr)
    (h : s.memRead s.pc = BitVec.ofNat 8 (16 * i.opcode.toNat + i.operand.toNat)) :
    step s = exec i { s with pc := s.pc + 1#8 } := by
  rw [step_eq, State.fetchInstr, State.fetchByte, h, decodeByte_ofNat]

/-- NOP and the unassigned opcodes alike (R120, R123): `n` is the instruction's byte, and with no
effect in the execute phase only the fetch's advance of `PC` is left. -/
theorem only_advances_pc_of_no_effect {i : Instr} {n : Nat}
    (hexec : ∀ s, exec i s = .next s) (hn : 16 * i.opcode.toNat + i.operand.toNat = n) (s : State) :
    encode i = [BitVec.ofNat 8 n] ∧ decodeByte (BitVec.ofNat 8 n) = i ∧ exec i s = .next s ∧
      (s.memRead s.pc = BitVec.ofNat 8 n → step s = .next { s with pc := s.pc + 1#8 }) := by
  subst hn
  exact ⟨encode_eq_ofNat i, decodeByte_ofNat i, hexec s,
    fun h => (step_of_memRead_pc i h).trans (hexec _)⟩

/-- Settles O12: NOP has no effect, and its byte is its operand's number. -/
theorem nopOnlyAdvancesPc : Obligations.NopOnlyAdvancesPc := fun imm s =>
  only_advances_pc_of_no_effect (exec_nop imm) (Nat.zero_add imm.toNat) s

/-- Settles O13: JMP replaces `PC` by its target and no other field. -/
theorem jmpSetsPcToTheTarget : Obligations.JmpSetsPcToTheTarget := fun imm s =>
  ⟨encode_eq_ofNat (.jmp imm), decodeByte_ofNat (.jmp imm), _, exec_jmp imm s,
    jumpTarget_toNat imm, rfl, rfl, rfl, fun _ => rfl⟩

/-- Settles O14: HLT sets the flag and replaces no other field, at the advanced `PC` too. -/
theorem hltSetsHalted : Obligations.HltSetsHalted := fun imm s =>
  ⟨encode_eq_ofNat (.hlt imm), decodeByte_ofNat (.hlt imm), _, exec_hlt imm s, rfl, rfl, rfl, rfl,
    fun _ => rfl, fun h => (step_of_memRead_pc (.hlt imm) h).trans (exec_hlt imm _)⟩

/-- Settles O15: none of the eight unassigned opcodes has an effect. -/
theorem unassignedOpcodesOnlyAdvancePc : Obligations.UnassignedOpcodesOnlyAdvancePc := by
  intro imm s
  simp only [List.forall_mem_cons, List.not_mem_nil, false_imp_iff, implies_true, and_true]
  exact
    ⟨only_advances_pc_of_no_effect (exec_undef7 imm) rfl s,
      only_advances_pc_of_no_effect (exec_undef8 imm) rfl s,
      only_advances_pc_of_no_effect (exec_undef9 imm) rfl s,
      only_advances_pc_of_no_effect (exec_undefA imm) rfl s,
      only_advances_pc_of_no_effect (exec_undefB imm) rfl s,
      only_advances_pc_of_no_effect (exec_undefC imm) rfl s,
      only_advances_pc_of_no_effect (exec_undefD imm) rfl s,
      only_advances_pc_of_no_effect (exec_undefE imm) rfl s⟩

end Sys2Proof.Machine

/-! PROOFS. Nothing stops the machine (spec/60_exceptions.md R140). -/

namespace Sys2Proof.Machine

/-- Settles O16: the arms of `exec` all complete, a step is one of them, and `Fault` has no
constructor. -/
theorem nothingEverStops : Obligations.NothingEverStops :=
  ⟨exec_completes, step_completes, fun fault => nomatch fault⟩

end Sys2Proof.Machine

/-! PROOFS. The decoder and the encoder are inverse (spec/30_encoding.md R60, R64, R66). -/

namespace Sys2Proof

/-- Encoding the instruction of a byte gives the byte back (R60). -/
@[simp] theorem encodeByte_decodeByte (insn : Byte) : encodeByte (decodeByte insn) = insn := by
  rw [encodeByte_eq_ofNat, decodeByte, opcode_instrOf, operand_instrOf, opField_toNat,
    immField_toNat, Nat.div_add_mod, BitVec.ofNat_toNat, BitVec.setWidth_eq]

/-- A byte decodes to an instruction exactly when the instruction encodes to the byte. -/
theorem decodeByte_eq_iff {insn : Byte} {i : Instr} : decodeByte insn = i ↔ encodeByte i = insn :=
  ⟨fun h => h ▸ encodeByte_decodeByte insn, fun h => h ▸ decodeByte_encodeByte i⟩

/-- What decoding a nonempty sequence of bytes answers. -/
theorem decode_cons_eq_iff {insn : Byte} {rest : List Byte} {i : Instr} :
    decode (insn :: rest) = .ok (i, rest) ↔ decodeByte insn = i := by
  rw [decode_cons, Except.ok.injEq, Prod.mk.injEq, and_iff_left rfl]

/-- Settles O5: an encoding is one byte, and on bytes decoding and encoding are inverse. -/
theorem decodeAndEncodeAgree : Obligations.DecodeAndEncodeAgree := fun i insn rest =>
  ⟨decode_cons_eq_iff.2 (decodeByte_encodeByte i), by
    rw [decode_cons_eq_iff, decodeByte_eq_iff, encode, List.singleton_inj]⟩

end Sys2Proof

/-! PROOFS. The invariant: canonical memory and B in 0..15 (spec/10_state.md R22). -/

namespace Sys2Proof.Machine

/-- A memory write keeps the invariant. -/
theorem State.Inv.memWrite {s : State} (h : s.Inv) (x : Addr) (v : Byte) : (s.memWrite x v).Inv :=
  ⟨State.memWrite_wf h.1 x v, h.2⟩

/-- Reset keeps the memory and clears B, so it keeps the invariant. -/
theorem State.Inv.resetCore {s : State} (h : s.Inv) : s.resetCore.Inv := ⟨h.1, Nat.zero_lt_succ _⟩

/-- Every execute phase keeps the invariant: ADD and SUB put an operand in B, STA is a write. -/
theorem exec_keeps_inv {i : Instr} {s t : State} (hs : s.Inv) (h : exec i s = .next t) : t.Inv := by
  obtain ⟨hmem, hb⟩ := hs
  rcases exec_cases h with ⟨-, -, rfl⟩ | ⟨_, -, rfl⟩ | ⟨imm, -, rfl⟩ | ⟨imm, -, rfl⟩ | ⟨_, -, rfl⟩ |
    ⟨_, -, rfl⟩ | ⟨_, -, rfl⟩ | ⟨_, -, rfl⟩
  · exact ⟨hmem, hb⟩
  · exact ⟨hmem, hb⟩
  · exact ⟨hmem, zext8_lt imm⟩
  · exact ⟨hmem, zext8_lt imm⟩
  · exact State.Inv.memWrite ⟨hmem, hb⟩ _ _
  · exact ⟨hmem, hb⟩
  · exact ⟨hmem, hb⟩
  · exact ⟨hmem, hb⟩

/-- Every step keeps the invariant. -/
theorem step_keeps_inv {s t : State} (hs : s.Inv) (h : step s = .next t) : t.Inv :=
  exec_keeps_inv (s := { s with pc := s.pc + 1#8 }) hs (step_eq s ▸ h)

/-- Every edge keeps the invariant. -/
theorem edge_keeps_inv {inp : Inputs} {s t : State} (hs : s.Inv) (h : edge inp s = .next t) :
    t.Inv := by
  rcases edge_cases h with ⟨-, rfl⟩ | ⟨-, -, rfl⟩ | ⟨-, -, -, hstep⟩ | ⟨-, -, -, -, rfl⟩
  · exact hs.resetCore
  · exact hs.memWrite _ _
  · exact step_keeps_inv hs hstep
  · exact hs

/-- Power-on has the invariant: no cell is listed and B is 0. -/
theorem State.inv_reset : State.reset.Inv := ⟨Memory.wf_nil, Nat.zero_lt_succ _⟩

/-- Every state the host can bring the core to has the invariant. -/
theorem Reachable.inv {s : State} (h : Reachable s) : s.Inv := by
  induction h with
  | powerOn => exact State.inv_reset
  | edge inp s t _ hedge ih => exact edge_keeps_inv ih hedge

/-- Settles O36: a step is an execute phase, and each arm keeps the invariant. -/
theorem stepKeepsTheInvariant : Obligations.StepKeepsTheInvariant := fun _ _ => step_keeps_inv

/-- Settles O37: every edge keeps the invariant, hence, from power-on, every reachable state has
it. -/
theorem reachableStatesMeetTheInvariant : Obligations.ReachableStatesMeetTheInvariant :=
  ⟨fun _ _ _ => edge_keeps_inv, fun _ => Reachable.inv⟩

/-- Settles O35: the base case of the invariant. -/
theorem powerOnMeetsTheInvariant : Obligations.PowerOnMeetsTheInvariant := State.inv_reset

end Sys2Proof.Machine

/-! PROOFS. The opcode table and the assembler lines against the encoder (spec/30_encoding.md R61 to
R67). -/

namespace Sys2Proof

/-- Exactly its own row of the opcode table covers an instruction's byte (R62). -/
theorem tableRow_of_encodeByte (i : Instr) : Laws.TableRow.Statement i := by
  cases i with
  | nop imm => exact Laws.TableRow.nop imm
  | lda imm => exact Laws.TableRow.lda imm
  | add imm => exact Laws.TableRow.add imm
  | sub imm => exact Laws.TableRow.sub imm
  | sta imm => exact Laws.TableRow.sta imm
  | ldi imm => exact Laws.TableRow.ldi imm
  | jmp imm => exact Laws.TableRow.jmp imm
  | undef7 imm => exact Laws.TableRow.undef7 imm
  | undef8 imm => exact Laws.TableRow.undef8 imm
  | undef9 imm => exact Laws.TableRow.undef9 imm
  | undefA imm => exact Laws.TableRow.undefA imm
  | undefB imm => exact Laws.TableRow.undefB imm
  | undefC imm => exact Laws.TableRow.undefC imm
  | undefD imm => exact Laws.TableRow.undefD imm
  | undefE imm => exact Laws.TableRow.undefE imm
  | hlt imm => exact Laws.TableRow.hlt imm

/-- Settles O3: a byte is the encoding of its instruction, whose row alone covers it. -/
theorem everyByteIsInExactlyOneTableRow : Obligations.EveryByteIsInExactlyOneTableRow := by
  intro insn
  have hrow := tableRow_of_encodeByte (decodeByte insn)
  rwa [Laws.TableRow.Statement, encodeByte_decodeByte] at hrow

/-- Settles O4: each of the nine bytes is the encoding of the instruction it decodes to. -/
theorem sampleBytesDecode : Obligations.SampleBytesDecode :=
  ⟨decodeByte_encodeByte (.lda 0b0011#4), decodeByte_encodeByte (.sta 0b0101#4),
    decodeByte_encodeByte (.ldi 0b0111#4), decodeByte_encodeByte (.add 0b0001#4),
    decodeByte_encodeByte (.sub 0b0110#4), decodeByte_encodeByte (.jmp 0b1111#4),
    decodeByte_encodeByte (.nop 0b1010#4), decodeByte_encodeByte (.undefA 0b0101#4),
    decodeByte_encodeByte (.hlt 0b0111#4)⟩

/-- The encoding of an instruction as R67 writes it, its operand given as a number that fits. -/
theorem encode_of_number {i : Instr} {op n : Nat} (hn : n < 16) (hop : i.opcode.toNat = op)
    (himm : i.operand = BitVec.ofNat 4 n) : encode i = [BitVec.ofNat 8 (op <<< 4 ||| n)] := by
  rw [encode_eq_ofNat, hop, himm, BitVec.toNat_ofNat, Nat.mod_eq_of_lt hn,
    ← Nat.shiftLeft_add_eq_or_of_lt hn, Nat.shiftLeft_eq, Nat.mul_comm]

end Sys2Proof

namespace Sys2Proof.Machine

/-- A line whose number fits assembles to its bytes (R67). -/
theorem assembleLine_of_wellFormed {line : AsmLine} (h : line.wellFormed = true) :
    assembleLine line = .ok (asmBytes line) := if_pos h

/-- A line whose number does not fit is refused by name (R67). -/
theorem assembleLine_of_not_wellFormed {line : AsmLine} (h : line.wellFormed = false) :
    assembleLine line = .error (.numberTooWide line) := by
  rw [assembleLine, h]; rfl

/-- A line of a mnemonic and a number assembles to the encoding of the instruction it names (R67). -/
theorem assembleLine_of_number {line : AsmLine} {i : Instr} {op n : Nat} (hn : n < 16)
    (hfit : line.wellFormed = decide (n < 16)) (hbytes : asmBytes line = encode i)
    (hop : i.opcode.toNat = op) (himm : i.operand = BitVec.ofNat 4 n) :
    assembleLine line = .ok [BitVec.ofNat 8 (op <<< 4 ||| n)] := by
  rw [assembleLine_of_wellFormed (hfit.trans (decide_eq_true hn)), hbytes,
    encode_of_number hn hop himm]

/-- Settles O6: a line's number fits or is refused, and its bytes are those of its instruction. -/
theorem assemblerLinesGiveTheirBytes : Obligations.AssemblerLinesGiveTheirBytes := by
  refine ⟨fun n hn => ?_, rfl, rfl, fun v hv => ?_, fun _ => rfl, fun n hn => ?_, fun v hv => ?_⟩
  · exact ⟨assembleLine_of_number hn rfl rfl rfl rfl, assembleLine_of_number hn rfl rfl rfl rfl,
      assembleLine_of_number hn rfl rfl rfl rfl, assembleLine_of_number hn rfl rfl rfl rfl,
      assembleLine_of_number hn rfl rfl rfl rfl, assembleLine_of_number hn rfl rfl rfl rfl⟩
  · exact assembleLine_of_wellFormed (decide_eq_true hv)
  · have hwide : decide (n < 16) = false := decide_eq_false (Nat.not_lt.2 hn)
    simp only [List.forall_mem_cons, List.not_mem_nil, false_imp_iff, implies_true, and_true]
    exact ⟨assembleLine_of_not_wellFormed hwide, assembleLine_of_not_wellFormed hwide,
      assembleLine_of_not_wellFormed hwide, assembleLine_of_not_wellFormed hwide,
      assembleLine_of_not_wellFormed hwide, assembleLine_of_not_wellFormed hwide⟩
  · exact assembleLine_of_not_wellFormed (decide_eq_false (Nat.not_lt.2 hv))

end Sys2Proof.Machine

/-! PROOFS. What a step fetches and where it goes (spec/40_execution_cycle.md R80, R81,
spec/20_memory.md section 5), and what it does not read: an ignored operand, the old B and the flag
(spec/10_state.md R22, R25, R26, spec/30_encoding.md R65). -/

namespace Sys2Proof.Machine

/-- An instruction whose operand is ignored does the same with every operand (R65). -/
theorem exec_eq_of_opcode_eq_of_ignored {i j : Instr} (hi : i.operandUse = .ignored)
    (hop : j.opcode = i.opcode) (s : State) : exec j s = exec i s := by
  rw [← instrOf_opcode_operand j, hop]
  cases i with
  | lda imm | add imm | sub imm | sta imm | ldi imm | jmp imm => cases hi
  | nop imm | undef7 imm | undef8 imm | undef9 imm | undefA imm | undefB imm | undefC imm
  | undefD imm | undefE imm | hlt imm => rfl

/-- The opcode of the fetched instruction, named by the high nibble of the byte at `PC`. -/
theorem opcode_fetchInstr_eq_iff (s : State) (op : Nibble) :
    s.fetchInstr.opcode = op ↔ (s.memRead s.pc).toNat / 16 = op.toNat := by
  rw [← opcode_fetchInstr_toNat, BitVec.toNat_inj]

/-- The fetched instruction from the high nibble of the byte at `PC` (R60, R62). -/
theorem fetchInstr_eq_instrOf {s : State} {op : Nibble}
    (h : (s.memRead s.pc).toNat / 16 = op.toNat) :
    s.fetchInstr = instrOf op s.fetchInstr.operand := by
  rw [← (opcode_fetchInstr_eq_iff s op).2 h, instrOf_opcode_operand]

/-- `PC` after a step: JMP's target, or the advanced `PC` (R81). -/
theorem step_pc {s t : State} (h : step s = .next t) :
    t.pc = if s.fetchInstr.opcode.toNat = 0x6 then jumpTarget s.fetchInstr.operand
      else s.pc + 1#8 := exec_pc (step_eq s ▸ h)

/-- A step over an STA stores A at the effective address and advances `PC` (R101). -/
theorem step_of_sta {s : State} (h : (s.memRead s.pc).toNat / 16 = 0x4) :
    step s = .next
      (State.memWrite { s with pc := s.pc + 1#8 } (effectiveAddr s.fetchInstr.operand) s.a) := by
  rw [step_eq, fetchInstr_eq_instrOf (op := 0x4#4) h]
  exact exec_sta ..

/-- No instruction reads B: from another B it does the same, and ADD and SUB alone replace it
(R22). -/
theorem exec_with_b {i : Instr} {s t : State} (v : Byte) (h : exec i s = .next t) :
    exec i { s with b := v } =
      .next { t with b := if i.opcode.toNat = 0x2 ∨ i.opcode.toNat = 0x3 then t.b else v } := by
  cases i with
  | lda imm | add imm | sub imm | sta imm | ldi imm | jmp imm | nop imm | hlt imm | undef7 imm
  | undef8 imm | undef9 imm | undefA imm | undefB imm | undefC imm | undefD imm | undefE imm =>
    cases h; rfl

/-- No instruction reads the flag: with another flag it does the same, and leaves that flag or, after
HLT, true (R25, R26). -/
theorem exec_with_halted {i : Instr} {s t : State} (f : Bool) (h : exec i s = .next t) :
    exec i { s with halted := f } =
      .next { t with halted := f || decide (i.opcode = 0xF#4) } := by
  obtain ⟨u, hu⟩ := exec_completes i { s with halted := f }
  rw [hu, ← exec_halted hu]
  cases i with
  | lda imm | add imm | sub imm | sta imm | ldi imm | jmp imm | nop imm | hlt imm | undef7 imm
  | undef8 imm | undef9 imm | undefA imm | undefB imm | undefC imm | undefD imm | undefE imm =>
    cases h; cases hu; rfl

/-- An execute phase that changes the flag is HLT's, which sets it (R25). -/
theorem hlt_of_exec_changes_halted {i : Instr} {s t : State} (h : exec i s = .next t)
    (hne : t.halted ≠ s.halted) : i.opcode = 0xF#4 ∧ t.halted = true := by
  rw [exec_halted h] at hne ⊢
  by_cases hop : i.opcode = 0xF#4
  · simp [hop]
  · simp [hop] at hne

/-- An edge with `run` alone steps a Running core and leaves a Halted one (R90). -/
theorem edge_runRequest (s : State) :
    edge Inputs.runRequest s = if s.halted then .next s else step s := by
  cases hs : s.halted <;> simp [edge, chooseAction, Inputs.runRequest, Inputs.idle, hs]

/-- Settles O17: the arms of NOP, HLT and the unassigned opcodes do not look at the operand. -/
theorem ignoredOperandMakesNoDifference : Obligations.IgnoredOperandMakesNoDifference :=
  fun _ _ s hi hop => exec_eq_of_opcode_eq_of_ignored hi hop s

/-- Settles O18: the decoder answers the fetched instruction. -/
theorem stepRunsTheDecodedInstruction : Obligations.StepRunsTheDecodedInstruction := fun s _ h =>
  decode_cons_eq_iff.1 h ▸ step_eq s

/-- Settles O22: a jump target lies below 16, so only the advance reaches a cell above. -/
theorem highCellsAreReachedSequentially : Obligations.HighCellsAreReachedSequentially := by
  intro s t h hhigh
  have hpc := step_pc h
  split at hpc
  · have hlow : t.pc.toNat < 16 := hpc ▸ zext8_lt _
    omega
  · rw [hpc, pc_succ_toNat]

/-- Settles O23: the STA's target is the advanced `PC`, where the next step fetches. -/
theorem storedByteIsFetchedNext : Obligations.StoredByteIsFetchedNext := by
  intro s hsta htarget
  have haddr : effectiveAddr s.fetchInstr.operand = s.pc + 1#8 := by
    refine BitVec.eq_of_toNat_eq ?_
    rw [effectiveAddr_toNat, operand_fetchInstr_toNat, htarget, pc_succ_toNat]
  refine ⟨_, haddr ▸ step_of_sta hsta, State.memRead_memWrite_self .., ?_⟩
  rw [step_eq, State.fetchInstr, State.fetchByte, State.memWrite_pc, State.memRead_memWrite_self]

/-- Settles O25: ADD and SUB write B without reading it, the other instructions do neither. -/
theorem noStepReadsTheOldB : Obligations.NoStepReadsTheOldB := by
  intro s v
  obtain ⟨t, ht⟩ := step_completes s
  have hb := exec_b_toNat (step_eq s ▸ ht)
  have hv := exec_with_b v (step_eq s ▸ ht)
  rw [opcode_fetchInstr_toNat] at hb hv
  rw [operand_fetchInstr_toNat] at hb
  refine ⟨t, ht, fun hop => ?_, fun hadd hsub => ?_⟩
  · rw [if_pos hop] at hb hv
    exact ⟨hb, hv⟩
  · rw [if_neg (not_or.2 ⟨hadd, hsub⟩)] at hb hv
    exact ⟨BitVec.eq_of_toNat_eq hb, hv⟩

/-- Settles O26: HLT alone changes the flag, no instruction reads it, reset clears it, `run` tests
it. -/
theorem whoReadsAndWritesHalted : Obligations.WhoReadsAndWritesHalted :=
  ⟨fun _ _ _ => hlt_of_exec_changes_halted, fun _ _ _ f => exec_with_halted f, rfl,
    State.resetCore_halted, edge_runRequest, fun _ _ => rfl⟩

/-- Settles O28: a step is an execute phase, which does not read the flag. -/
theorem haltedDoesNotChangeAStep : Obligations.HaltedDoesNotChangeAStep := by
  intro s f
  obtain ⟨t, ht⟩ := step_completes s
  have hf := exec_with_halted f (step_eq s ▸ ht)
  simp only [opcode_fetchInstr_eq_iff] at hf
  exact ⟨t, ht, hf⟩

end Sys2Proof.Machine

/-! PROOFS. Who reads and writes a cell (spec/10_state.md section 5, spec/20_memory.md sections 1
and 3). -/

namespace Sys2Proof.Machine

/-- Canonical memories that read alike list the same cells, in the same order, so they are equal
(log 3). -/
theorem Memory.eq_of_read_eq {m n : Memory} (hm : m.wf) (hn : n.wf)
    (h : ∀ x, x < 256 → m.read x = n.read x) : m = n := by
  have hirrefl : Std.Irrefl fun p q : Host.Cell => p.1 < q.1 := ⟨fun _ => Nat.lt_irrefl _⟩
  have hasymm : Std.Antisymm fun p q : Host.Cell => p.1 < q.1 :=
    ⟨fun _ _ hlt hgt => absurd hgt (Nat.lt_asymm hlt)⟩
  refine List.Pairwise.eq_of_mem_iff hm.1 hn.1 fun c => ⟨fun hc => ?_, fun hc => ?_⟩
  · rw [Memory.mem_iff_read hn, ← h c.1 (hm.2 c hc).1]
    exact (Memory.mem_iff_read hm).1 hc
  · rw [Memory.mem_iff_read hm, h c.1 (hn.2 c hc).1]
    exact (Memory.mem_iff_read hn).1 hc

/-- In canonical memory, writes to two cells may be exchanged. -/
theorem State.memWrite_comm {s : State} (hs : s.mem.wf) {x y : Addr} (hne : x ≠ y) (v w : Byte) :
    (s.memWrite x v).memWrite y w = (s.memWrite y w).memWrite x v := by
  refine congrArg (fun m => { s with mem := m }) (Memory.eq_of_read_eq
    (State.memWrite_wf (State.memWrite_wf hs x v) y w)
    (State.memWrite_wf (State.memWrite_wf hs y w) x v) fun z _ => ?_)
  have hne : x.toNat ≠ y.toNat := fun h => hne (BitVec.eq_of_toNat_eq h)
  simp only [State.memWrite_mem, Memory.read_write]
  by_cases hz : z = x.toNat
  · rw [if_pos hz, if_pos hz, if_neg (hz ▸ hne)]
  · rw [if_neg hz, if_neg hz]

/-- An operand does not reach the cells from 0x10 on (R31). -/
theorem effectiveAddr_ne {x : Addr} (hx : 16 ≤ x.toNat) (imm : Nibble) : effectiveAddr imm ≠ x :=
  fun h => Nat.not_lt.2 hx (h ▸ zext8_lt imm)

/-- An execute phase neither reads nor writes a cell from 0x10 on: from the state with `v` written
there it does the same. -/
theorem exec_memWrite_high {i : Instr} {s t : State} {x : Addr} (v : Byte) (hs : s.mem.wf)
    (hx : 16 ≤ x.toNat) (h : exec i s = .next t) :
    exec i (s.memWrite x v) = .next (t.memWrite x v) := by
  cases i with
  | lda imm =>
    cases h
    rw [exec_lda, State.memRead_memWrite, if_neg (effectiveAddr_ne hx imm)]; rfl
  | sta imm =>
    cases h
    rw [exec_sta, State.memWrite_a, State.memWrite_comm hs (effectiveAddr_ne hx imm).symm]
  | add imm | sub imm | ldi imm | jmp imm | nop imm | hlt imm | undef7 imm | undef8 imm
  | undef9 imm | undefA imm | undefB imm | undefC imm | undefD imm | undefE imm => cases h; rfl

/-- A step that changes a cell executes an STA to it, and leaves A there (R101). -/
theorem sta_of_step_changes_cell {s t : State} {x : Addr} (h : step s = .next t)
    (hne : t.memRead x ≠ s.memRead x) :
    (s.memRead s.pc).toNat = 0x40 + x.toNat ∧ x.toNat < 16 ∧ t.memRead x = s.a := by
  have hread := exec_read_toNat (step_eq s ▸ h) x.toNat
  rw [opcode_fetchInstr_toNat, operand_fetchInstr_toNat] at hread
  split at hread
  case isTrue hsta =>
    obtain ⟨hop, himm⟩ := hsta
    exact ⟨by omega, by omega, BitVec.eq_of_toNat_eq hread⟩
  case isFalse => exact absurd (BitVec.eq_of_toNat_eq hread) hne

/-- A step keeps every cell from 0x10 on: an STA's target lies below. -/
theorem step_keeps_high_cell {s t : State} {x : Addr} (hx : 16 ≤ x.toNat) (h : step s = .next t) :
    t.memRead x = s.memRead x := by
  by_contra hne
  obtain ⟨-, hlow, -⟩ := sta_of_step_changes_cell h hne
  omega

/-- A write to another cell than the one at `PC` does not change what is fetched. -/
theorem fetchInstr_memWrite {s : State} {x : Addr} (hx : x ≠ s.pc) (v : Byte) :
    (s.memWrite x v).fetchInstr = s.fetchInstr := by
  rw [State.fetchInstr, State.fetchByte, State.memWrite_pc, State.memRead_memWrite,
    if_neg hx.symm, State.fetchInstr, State.fetchByte]

/-- Settles O30: in canonical form the listed cells, and so the list, are what the reads say. -/
theorem canonicalMemoriesThatReadAlikeAreEqual :
    Obligations.CanonicalMemoriesThatReadAlikeAreEqual := fun _ _ => Memory.eq_of_read_eq

/-- Settles O31: reset and an idle edge change no cell, a step only by an STA. -/
theorem onlyStaAndHostWriteChangeACell : Obligations.OnlyStaAndHostWriteChangeACell := by
  intro inp s t x h hne
  rcases edge_cases h with ⟨-, rfl⟩ | ⟨hrst, hwe, rfl⟩ | ⟨hrst, hwe, hact, hstep⟩ | ⟨-, -, -, -, rfl⟩
  · exact absurd rfl hne
  · have hx : x = inp.memAddr := by
      by_contra hx
      exact hne (State.sameMemoryBut_memWrite s _ _ x hx)
    subst hx
    exact .inl ⟨hrst, hwe, rfl, State.memRead_memWrite_self ..⟩
  · exact .inr ⟨hrst, hwe, hact.imp_right And.left, sta_of_step_changes_cell hstep hne⟩
  · exact absurd rfl hne

/-- Settles O32: such a cell is neither the fetched one nor one that an operand reaches. -/
theorem stepIgnoresHighCellsItDoesNotFetch : Obligations.StepIgnoresHighCellsItDoesNotFetch := by
  intro s x v hs hx hpc
  obtain ⟨t, ht⟩ := step_completes s
  refine ⟨t, ht, step_keeps_high_cell hx ht, ?_⟩
  rw [step_eq, fetchInstr_memWrite hpc]
  exact exec_memWrite_high (s := { s with pc := s.pc + 1#8 }) v hs hx (step_eq s ▸ ht)

end Sys2Proof.Machine

/-! PROOFS. The ports and reset (spec/40_execution_cycle.md section 3,
spec/70_reset_and_hazards.md section 1). -/

namespace Sys2Proof.Machine

/-- An edge with `rst` resets, whatever else is requested (R90). -/
theorem edge_of_rst {inp : Inputs} (hrst : inp.rst = true) (s : State) :
    edge inp s = .next s.resetCore := by
  simp [edge, chooseAction, hrst]

/-- An edge with `mem_we` and no `rst` is a host write (R90). -/
theorem edge_of_memWe {inp : Inputs} (hrst : inp.rst = false) (hwe : inp.memWe = true) (s : State) :
    edge inp s = .next (s.memWrite inp.memAddr inp.memWdata) := by
  simp [edge, chooseAction, hrst, hwe]

/-- An edge with neither `rst` nor `mem_we` steps on a step request, or on `run` while Running, and
else does nothing (R90). -/
theorem edge_of_no_rst_of_no_memWe {inp : Inputs} (hrst : inp.rst = false)
    (hwe : inp.memWe = false) (s : State) :
    edge inp s = if inp.step ∨ inp.run ∧ s.halted = false then step s else .next s := by
  cases hst : inp.step with
  | true => simp [edge, chooseAction, hrst, hwe, hst]
  | false =>
    cases hrun : inp.run with
    | true => cases hs : s.halted <;> simp [edge, chooseAction, hrst, hwe, hst, hrun, hs]
    | false => simp [edge, chooseAction, hrst, hwe, hst, hrun]

/-- A write leaves every output as it was at every other address (R88, R91). -/
theorem outputs_memWrite {s : State} {x y : Addr} (hy : y ≠ x) (v : Byte) :
    outputs y (s.memWrite x v) = outputs y s :=
  congrArg (fun b => (⟨b, s.a, s.b, s.pc, s.halted⟩ : Outputs))
    (State.sameMemoryBut_memWrite s x v y hy)

/-- Settles O29: STA and the host's write are memory writes, which set one cell. -/
theorem writeSetsOneCell : Obligations.WriteSetsOneCell :=
  ⟨fun s x v => ⟨State.memRead_memWrite_self s x v, State.sameMemoryBut_memWrite s x v, rfl⟩,
    exec_sta, fun s _ _ => edge_of_memWe rfl rfl s⟩

/-- No cell is listed at power-on, so each reads as the power-on byte (R160). -/
theorem State.memRead_reset (x : Addr) : State.reset.memRead x = 0x00#8 := Memory.read_nil x.toNat

/-- Settles O33: the registers as constructed, and no cell listed. -/
theorem powerOnState : Obligations.PowerOnState := ⟨rfl, rfl, rfl, rfl, State.memRead_reset⟩

/-- Settles O34: a reset edge clears the registers and keeps the cells, and the next step fetches at
address 0. -/
theorem resetEdgeRestartsAtZero : Obligations.ResetEdgeRestartsAtZero := fun _ s hrst =>
  ⟨_, edge_of_rst hrst s, State.resetCore_a s, State.resetCore_b s, State.resetCore_pc s,
    State.resetCore_halted s, State.resetCore_memRead s, step_eq s.resetCore⟩

/-- Settles O40: the run tests the flag before its first step. -/
theorem runStartedHaltedTakesNoStep : Obligations.RunStartedHaltedTakesNoStep :=
  fun n _ hs => runWithFuel_of_halted hs n

/-- Settles O42: reset and the host's write come first, then a step or nothing. -/
theorem edgePriority : Obligations.EdgePriority := by
  intro inp s
  refine ⟨fun hrst => edge_of_rst hrst s, fun hrst hwe => edge_of_memWe hrst hwe s,
    fun hrst hwe hst => ?_, fun hrst hwe hst hrun hs => ?_, fun hrst hwe hst hidle => ?_⟩
  · rw [edge_of_no_rst_of_no_memWe hrst hwe, if_pos (.inl hst)]
  · rw [edge_of_no_rst_of_no_memWe hrst hwe, if_pos (.inr ⟨hrun, hs⟩)]
  · rw [edge_of_no_rst_of_no_memWe hrst hwe, if_neg]
    rcases hidle with hrun | hs
    · simp [hst, hrun]
    · simp [hst, hs]

/-- Settles O43: such an edge is a memory write, which changes one cell and no register. -/
theorem hostWriteReadsBackAtThePorts : Obligations.HostWriteReadsBackAtThePorts :=
  fun _ s hrst hwe => ⟨_, edge_of_memWe hrst hwe s, State.memRead_memWrite_self ..,
    fun _ hx => outputs_memWrite hx _, rfl, rfl, rfl, rfl⟩

end Sys2Proof.Machine

/-! PROOFS. Sequences of edges and long runs: no-ops for ever, the held `run` port, the Halted core
(spec/40_execution_cycle.md sections 2 and 3, spec/43_control.md section 1,
spec/60_exceptions.md section 6). -/

namespace Sys2Proof.Machine

/-- NOP and the unassigned opcodes have no effect (R120, R123). -/
theorem exec_of_noop {i : Instr}
    (h : i.opcode.toNat = 0x0 ∨ 0x7 ≤ i.opcode.toNat ∧ i.opcode.toNat ≤ 0xE) (s : State) :
    exec i s = .next s := by
  cases i with
  | lda imm | add imm | sub imm | sta imm | ldi imm | jmp imm | hlt imm =>
    simp [Instr.opcode] at h
  | nop imm | undef7 imm | undef8 imm | undef9 imm | undefA imm | undefB imm | undefC imm
  | undefD imm | undefE imm => rfl

/-- Every cell holds a NOP or an unassigned opcode: its high nibble is 0x0 or 0x7..0xE. -/
def AllNoops (s : State) : Prop :=
  ∀ x : Addr, (s.memRead x).toNat / 16 = 0x0 ∨
    (0x7 ≤ (s.memRead x).toNat / 16 ∧ (s.memRead x).toNat / 16 ≤ 0xE)

/-- Over no-ops, a step advances `PC` and changes nothing else. -/
theorem AllNoops.step_eq {s : State} (h : AllNoops s) :
    step s = .next { s with pc := s.pc + 1#8 } := by
  have hnoop := h s.pc
  rw [← opcode_fetchInstr_toNat] at hnoop
  exact exec_of_noop hnoop _

/-- Over no-ops, `k` steps advance `PC` by `k` modulo 256 and change nothing else. -/
theorem AllNoops.stepN_eq {s : State} (h : AllNoops s) (k : Nat) :
    stepN k s = .next { s with pc := s.pc + BitVec.ofNat 8 k } := by
  induction k generalizing s with
  | zero => rw [BitVec.add_zero]; rfl
  | succ k ih =>
    have hnext : AllNoops { s with pc := s.pc + 1#8 } := h
    rw [stepN_succ h.step_eq, ih hnext, BitVec.add_assoc, ← BitVec.ofNat_add, Nat.add_comm]

/-- A Running core over no-ops hangs: no step sets the flag. -/
theorem AllNoops.hangs {s : State} (h : AllNoops s) (hs : s.halted = false) : Hangs s := by
  refine ⟨hs, fun k t ⟨_, _, hend, ht, _⟩ => ?_⟩
  cases (h.stepN_eq k).symm.trans hend
  exact absurd ht (by simp [hs])

/-- The cells of an unloaded core are NOPs (R160). -/
theorem allNoops_reset : AllNoops State.reset := fun x =>
  .inl (by rw [State.memRead_reset]; rfl)

/-- Every edge completes (R90, R95). -/
theorem edge_completes (inp : Inputs) (s : State) : ∃ t, edge inp s = .next t := by
  unfold edge
  split
  case h_3 => exact step_completes s
  all_goals exact ⟨_, rfl⟩

/-- One edge, then the others. -/
theorem edges_cons {inp : Inputs} {s t : State} (h : edge inp s = .next t) (ins : List Inputs) :
    edges (inp :: ins) s = edges ins t := by
  rw [edges, h]

/-- An invariant of the edges whose inputs meet `ok` is one of their sequences. -/
theorem edges_keep {P : State → Prop} {ok : Inputs → Prop}
    (hedge : ∀ inp s t, ok inp → P s → edge inp s = .next t → P t)
    {ins : List Inputs} (hok : ∀ inp ∈ ins, ok inp) {s t : State} (hs : P s)
    (h : edges ins s = .next t) : P t := by
  induction ins generalizing s with
  | nil => cases h; exact hs
  | cons inp ins ih =>
    obtain ⟨hinp, hok⟩ := List.forall_mem_cons.1 hok
    obtain ⟨u, hu⟩ := edge_completes inp s
    rw [edges_cons hu] at h
    exact ih hok (hedge inp s u hinp hs hu) h

/-- Held on a Halted core, `run` changes nothing. -/
theorem edges_runRequest_of_halted {s : State} (hs : s.halted = true) (n : Nat) :
    edges (List.replicate n Inputs.runRequest) s = .next s := by
  induction n with
  | zero => rfl
  | succ n ih =>
    rw [List.replicate_succ, edges_cons (t := s) (by rw [edge_runRequest, if_pos hs]), ih]

/-- From a Halted state the executor and the held `run` port both stay there (R84). -/
theorem runWithFuel_eq_ended_iff_edges_of_halted {s : State} (hs : s.halted = true) (n : Nat)
    (t : State) : runWithFuel n s = .ended t ↔
      edges (List.replicate n Inputs.runRequest) s = .next t ∧ t.halted = true := by
  rw [runWithFuel_of_halted hs, edges_runRequest_of_halted hs, RunOutcome.ended.injEq,
    Host.Outcome.next.injEq]
  exact ⟨fun h => ⟨h, h ▸ hs⟩, And.left⟩

/-- The executor is the held `run` port: it names the state that the edges leave, if it is Halted. -/
theorem runWithFuel_eq_ended_iff_edges (n : Nat) (s t : State) :
    runWithFuel n s = .ended t ↔
      edges (List.replicate n Inputs.runRequest) s = .next t ∧ t.halted = true := by
  induction n generalizing s with
  | zero =>
    cases hs : s.halted with
    | true => exact runWithFuel_eq_ended_iff_edges_of_halted hs 0 t
    | false =>
      rw [runWithFuel_zero hs]
      refine ⟨nofun, fun ⟨h, ht⟩ => ?_⟩
      cases h
      exact absurd ht (by simp [hs])
  | succ n ih =>
    cases hs : s.halted with
    | true => exact runWithFuel_eq_ended_iff_edges_of_halted hs _ t
    | false =>
      obtain ⟨u, hu⟩ := step_completes s
      have hedge : edge Inputs.runRequest s = .next u := by
        rw [edge_runRequest, if_neg (by simp [hs]), hu]
      rw [runWithFuel_succ hs hu, List.replicate_succ, edges_cons hedge, ih]

/-- An edge without reset keeps a core Halted (R26). -/
theorem edge_keeps_halted {inp : Inputs} {s t : State} (hrst : inp.rst = false)
    (hs : s.halted = true) (h : edge inp s = .next t) : t.halted = true := by
  rcases edge_cases h with ⟨hrst', -⟩ | ⟨-, -, rfl⟩ | ⟨-, -, -, hstep⟩ | ⟨-, -, -, -, rfl⟩
  · exact absurd hrst' (by simp [hrst])
  · exact hs
  · exact exec_keeps_halted (s := { s with pc := s.pc + 1#8 }) hs (step_eq s ▸ hstep)
  · exact hs

/-- On a Halted core an edge with neither reset nor a forced step is a host write or nothing. -/
theorem edge_of_halted {inp : Inputs} {s t : State} (hrst : inp.rst = false)
    (hst : inp.step = false ∨ inp.memWe = true) (hs : s.halted = true)
    (h : edge inp s = .next t) :
    (inp.memWe = true ∧ t = s.memWrite inp.memAddr inp.memWdata) ∨ t = s := by
  rcases edge_cases h with ⟨hrst', -⟩ | ⟨-, hwe, rfl⟩ | ⟨-, hwe, hact, -⟩ | ⟨-, -, -, -, rfl⟩
  · exact absurd hrst' (by simp [hrst])
  · exact .inl ⟨hwe, rfl⟩
  · have hst : inp.step = false := hst.resolve_right (by simp [hwe])
    exact absurd hact (by simp [hst, hs])
  · exact .inr rfl

/-- Settles O39: over no-ops every step only advances `PC`; the unloaded core is such a state. -/
theorem unloadedCoreRunsNopsForever : Obligations.UnloadedCoreRunsNopsForever := by
  refine ⟨fun s h => ⟨AllNoops.stepN_eq h, AllNoops.hangs h⟩, fun k => ?_,
    allNoops_reset.hangs rfl⟩
  rw [allNoops_reset.stepN_eq, show State.reset.pc = 0#8 from rfl, BitVec.zero_add]

/-- Settles O41, by induction on the number of edges. -/
theorem heldRunPortIsTheRun : Obligations.HeldRunPortIsTheRun := runWithFuel_eq_ended_iff_edges

/-- Settles O44: what the core keeps at each such edge it keeps through all of them. -/
theorem haltedCoreWaitsForTheHost : Obligations.HaltedCoreWaitsForTheHost := by
  intro ins s t hs h
  refine ⟨fun hok => ?_, fun hok => ?_, fun hok => ?_⟩
  · exact edges_keep (fun _ _ _ hrst hu hedge => edge_keeps_halted hrst hu hedge) hok hs h
  · refine edges_keep (P := fun u => { u with mem := s.mem } = s) ?_ hok rfl h
    rintro inp u v ⟨hrst, hst⟩ hu hedge
    have huh : u.halted = true := (congrArg State.halted hu :).trans hs
    rcases edge_of_halted hrst hst huh hedge with ⟨-, rfl⟩ | rfl
    · exact hu
    · exact hu
  · refine edges_keep (P := fun u => u = s) ?_ hok rfl h
    rintro inp u v ⟨hrst, hst, hwe⟩ rfl hedge
    rcases edge_of_halted hrst (.inl hst) hs hedge with ⟨hwe', -⟩ | rfl
    · exact absurd hwe' (by simp [hwe])
    · rfl

end Sys2Proof.Machine

/-! PROOFS. `copy_in` under both settings of its open parameter (spec/20_memory.md R52, log 13). -/

namespace Sys2Proof.Machine

/-- Within the memory a byte goes to its own address, under both settings. -/
theorem copyInTarget_of_lt (ov : Config.CopyInOverflow) {n : Nat} (hn : n < 256) :
    copyInTarget ov n = some (BitVec.ofNat 8 n) := if_pos hn

/-- Under `wrap` a byte goes to its address modulo 256. -/
theorem copyInTarget_wrap (n : Nat) : copyInTarget .wrap n = some (BitVec.ofNat 8 n) := by
  by_cases hn : n < 256
  · exact copyInTarget_of_lt .wrap hn
  · refine (if_neg hn).trans (congrArg some (BitVec.eq_of_toNat_eq ?_))
    rw [BitVec.toNat_ofNat, BitVec.toNat_ofNat]
    exact Nat.mod_mod n 256

/-- Under `truncate` a byte past the memory is dropped. -/
theorem copyInTarget_truncate_of_le {n : Nat} (hn : 256 ≤ n) : copyInTarget .truncate n = none :=
  if_neg (Nat.not_lt.2 hn)

/-- The first byte of `copy_in` is a write where it has a target, before the writes of the others. -/
theorem copyInWrites_cons_of_some {ov : Config.CopyInOverflow} {n : Nat} {x : Addr}
    (h : copyInTarget ov n = some x) (v : Byte) (rest : List Byte) :
    copyInWrites ov n (v :: rest) = (x, v) :: copyInWrites ov (n + 1) rest := by
  rw [copyInWrites, h]

/-- Where the first byte of `copy_in` has no target, the writes are those of the others. -/
theorem copyInWrites_cons_of_none {ov : Config.CopyInOverflow} {n : Nat}
    (h : copyInTarget ov n = none) (v : Byte) (rest : List Byte) :
    copyInWrites ov n (v :: rest) = copyInWrites ov (n + 1) rest := by
  rw [copyInWrites, h]

/-- `copy_in` makes at most one write per byte. -/
theorem copyInWrites_length_le (ov : Config.CopyInOverflow) (n : Nat) (bytes : List Byte) :
    (copyInWrites ov n bytes).length ≤ bytes.length := by
  induction bytes generalizing n with
  | nil => exact Nat.le_refl 0
  | cons v rest ih =>
    cases htarget : copyInTarget ov n with
    | none =>
      rw [copyInWrites_cons_of_none htarget]
      exact Nat.le_succ_of_le (ih (n + 1))
    | some x =>
      rw [copyInWrites_cons_of_some htarget]
      exact Nat.succ_le_succ (ih (n + 1))

/-- Under `wrap`, `copy_in` makes one write per byte. -/
theorem copyInWrites_wrap_length (n : Nat) (bytes : List Byte) :
    (copyInWrites .wrap n bytes).length = bytes.length := by
  induction bytes generalizing n with
  | nil => rfl
  | cons v rest ih =>
    rw [copyInWrites_cons_of_some (copyInTarget_wrap n), List.length_cons, ih, List.length_cons]

/-- Within the capacity both settings make the same writes. -/
theorem copyInWrites_wrap_eq_truncate {n : Nat} {bytes : List Byte} (h : n + bytes.length ≤ 256) :
    copyInWrites .wrap n bytes = copyInWrites .truncate n bytes := by
  induction bytes generalizing n with
  | nil => rfl
  | cons v rest ih =>
    rw [List.length_cons] at h
    have hn : n < 256 := by omega
    rw [copyInWrites_cons_of_some (copyInTarget_of_lt .wrap hn),
      copyInWrites_cons_of_some (copyInTarget_of_lt .truncate hn), ih (by omega)]

/-- Writes leave everything but the memory as it was. -/
theorem State.memWriteAll_with_mem (ws : List (Addr × Byte)) (s : State) :
    { s.memWriteAll ws with mem := s.mem } = s := by
  obtain ⟨ha, hb, hpc, hhalted⟩ := State.memWriteAll_registers ws s
  simp only [ha, hb, hpc, hhalted]

/-- Write requests, one edge each, are the writes in order (R93). -/
theorem edges_writeRequests (ws : List (Addr × Byte)) (s : State) :
    edges (ws.map fun w => Inputs.writeRequest w.1 w.2) s = .next (s.memWriteAll ws) := by
  induction ws generalizing s with
  | nil => rfl
  | cons w ws ih =>
    rw [List.map_cons, edges_cons (edge_of_memWe rfl rfl s), ih]; rfl

/-- A cell after `copy_in` under `truncate` from the unbounded address `n` on: the byte whose address
it is, or what it held. -/
theorem memRead_copyInWrites_truncate (n : Nat) (bytes : List Byte) (s : State) (x : Addr) :
    (s.memWriteAll (copyInWrites .truncate n bytes)).memRead x =
      if n ≤ x.toNat then bytes[x.toNat - n]?.getD (s.memRead x) else s.memRead x := by
  induction bytes generalizing n s with
  | nil => simp [copyInWrites, State.memWriteAll]
  | cons v rest ih =>
    have hx := x.isLt
    by_cases hn : n < 256
    · have hx' : x = BitVec.ofNat 8 n ↔ x.toNat = n := by
        rw [← BitVec.toNat_inj, BitVec.toNat_ofNat, Nat.mod_eq_of_lt hn]
      rw [copyInWrites_cons_of_some (copyInTarget_of_lt .truncate hn), State.memWriteAll_cons, ih,
        State.memRead_memWrite]
      simp only [hx']
      rcases Nat.lt_trichotomy x.toNat n with hlt | heq | hgt
      · rw [if_neg (by omega), if_neg (by omega), if_neg (by omega)]
      · rw [if_neg (by omega), if_pos heq, if_pos (by omega), heq, Nat.sub_self]; rfl
      · obtain ⟨d, hd⟩ : ∃ d, x.toNat = n + 1 + d := ⟨x.toNat - (n + 1), by omega⟩
        rw [if_pos (by omega), if_neg (by omega), if_pos (by omega), hd, Nat.add_sub_cancel_left,
          show n + 1 + d - n = d + 1 by omega, List.getElem?_cons_succ]
    · rw [copyInWrites_cons_of_none (copyInTarget_truncate_of_le (by omega)), ih,
        if_neg (by omega), if_neg (by omega)]

/-- A cell that no byte's address is congruent to keeps what it held, under `wrap`. -/
theorem memRead_copyInWrites_wrap_of_untouched {n : Nat} {bytes : List Byte} (s : State) {x : Addr}
    (h : ∀ i, i < bytes.length → (n + i) % 256 ≠ x.toNat) :
    (s.memWriteAll (copyInWrites .wrap n bytes)).memRead x = s.memRead x := by
  induction bytes generalizing n s with
  | nil => rfl
  | cons v rest ih =>
    have hx : x ≠ BitVec.ofNat 8 n := fun hx =>
      h 0 (Nat.zero_lt_succ _) (hx ▸ (BitVec.toNat_ofNat n 8).symm)
    have hrest : ∀ i, i < rest.length → (n + 1 + i) % 256 ≠ x.toNat := fun i hi =>
      Nat.add_right_comm n 1 i ▸ h (i + 1) (Nat.succ_lt_succ hi)
    rw [copyInWrites_cons_of_some (copyInTarget_wrap n), State.memWriteAll_cons, ih _ hrest,
      State.memRead_memWrite, if_neg hx]

/-- A cell holds the last byte whose address is congruent to it, under `wrap`. -/
theorem memRead_copyInWrites_wrap_of_last {n i : Nat} {bytes : List Byte} {v : Byte} (s : State)
    {x : Addr} (hv : bytes[i]? = some v) (hx : (n + i) % 256 = x.toNat)
    (hlast : ∀ j, i < j → j < bytes.length → (n + j) % 256 ≠ x.toNat) :
    (s.memWriteAll (copyInWrites .wrap n bytes)).memRead x = v := by
  induction bytes generalizing n i s with
  | nil => cases hv
  | cons w rest ih =>
    have hrest : ∀ j, i < j + 1 → j < rest.length → (n + 1 + j) % 256 ≠ x.toNat := fun j hij hj =>
      Nat.add_right_comm n 1 j ▸ hlast (j + 1) hij (Nat.succ_lt_succ hj)
    rw [copyInWrites_cons_of_some (copyInTarget_wrap n), State.memWriteAll_cons]
    cases i with
    | zero =>
      cases hv
      have hx : x = BitVec.ofNat 8 n := BitVec.eq_of_toNat_eq (hx ▸ (BitVec.toNat_ofNat n 8).symm)
      rw [memRead_copyInWrites_wrap_of_untouched _ fun j hj => hrest j (Nat.zero_lt_succ j) hj, hx,
        State.memRead_memWrite_self]
    | succ i =>
      exact ih _ hv (Nat.add_right_comm n 1 i ▸ hx) fun j hij hj =>
        hrest j (Nat.succ_lt_succ hij) hj

/-- Settles O45: the writes from the start address on, cell by cell. -/
theorem copyInTruncateFillsUpToTheTop : Obligations.CopyInTruncateFillsUpToTheTop :=
  fun addr bytes s => ⟨State.memWriteAll_with_mem _ s,
    memRead_copyInWrites_truncate addr.toNat bytes s⟩

/-- Settles O46: a cell keeps what it held or holds the last byte written to it. -/
theorem copyInWrapLaterByteWins : Obligations.CopyInWrapLaterByteWins :=
  fun _ _ s => ⟨State.memWriteAll_with_mem _ s, fun _ =>
    ⟨fun _ _ hv hx hlast => memRead_copyInWrites_wrap_of_last s hv hx hlast,
      memRead_copyInWrites_wrap_of_untouched s⟩⟩

/-- Settles O47: each write is an edge, and within the capacity the writes are the same. -/
theorem copyInIsASequenceOfHostWrites : Obligations.CopyInIsASequenceOfHostWrites := by
  refine ⟨fun ov addr bytes s => ⟨edges_writeRequests _ s, ?_⟩, fun addr bytes s h => ?_⟩
  · rw [copyInRequests, List.length_map]
    exact copyInWrites_length_le ov addr.toNat bytes
  · have hws := copyInWrites_wrap_eq_truncate h
    refine ⟨congrArg s.memWriteAll hws, congrArg (List.map _) hws, ?_⟩
    rw [copyInRequests, List.length_map, copyInWrites_wrap_length]

end Sys2Proof.Machine
